-- ==== Sys2Proof/Word.lean ====
section
/-! DEFINITION. The machine's word: one 8-bit byte (00_scope.md R5, R7; 10_state.md R24). -/

namespace Sys2Proof

/-- An unsigned 8-bit value: a memory cell, a register, an address, an operand byte (00_scope.md R7). -/
abbrev Byte := BitVec 8

end Sys2Proof
end

