-- ==== Sys2Proof/Config.lean ====
section
/-! DEFINITION. The implementation parameters of 00_scope.md R5 that are not an encoding. -/

namespace Sys2Proof.Config

/-- `MEM_SIZE`: 256 cells, and the longest program image (00_scope.md R5; 70_reset_and_hazards.md R232). -/
def memSize : Nat := 256

/-- `PC_RESET` (00_scope.md R5; 70_reset_and_hazards.md R231). -/
def pcReset : Byte := 0x00#8

/-- `SP_RESET` (00_scope.md R5; decision D12). -/
def spReset : Byte := 0xF4#8

/-- `GP_RESET` for R0..R4 (00_scope.md R5; decision D11). UNVERIFIED: log 5. -/
def gpReset : Byte := 0x00#8

/-- What a cell that neither the image nor the program wrote holds (10_state.md R35; 20_memory.md R50). -/
def blankCell : Byte := 0x00#8

/-- `CYCLE_LIMIT` in `State.reset`. The spec leaves it OPEN (00_scope.md R5; decision D13); a run with a
limit starts from `Machine.boot`. DESIGN CHOICE: log 1. -/
def cycleLimitReset : Option Nat := none

end Sys2Proof.Config
end

