-- ==== Sys2Proof/Machine/State.lean ====
section
/-! DEFINITION. The machine's state (10_state.md R20 to R37), its value after reset (R35), and the reasons a step
or a host request can stop. -/

namespace Sys2Proof.Machine

/-- The general registers R0..R4, the only ones an operand can name (10_state.md R21, R22). -/
inductive Reg where
  | r0 | r1 | r2 | r3 | r4
deriving DecidableEq, Repr

/-- The contents of R0..R4, 8 bits each; none is hard-wired and there are no banks (10_state.md R22). -/
structure Regs where
  r0 : Byte
  r1 : Byte
  r2 : Byte
  r3 : Byte
  r4 : Byte
deriving DecidableEq, Repr

/-- The four values of FL (10_state.md R27). It has no bit layout a program can observe (R28). -/
inductive Flag where
  | unset
  | equal
  | greaterThan
  | lessThan
deriving DecidableEq, Repr

/-- The two run states of the loop (10_state.md R29). -/
inductive RunStatus where
  | running
  | halted
deriving DecidableEq, Repr

/-- The five fault kinds (10_state.md R30; 60_exceptions.md R200). Each is an architectural event that the spec
describes: raising one is a NEXT state (`takeFault`, 60_exceptions.md R206), never a `Fault` of the model. -/
inductive FaultKind where
  | addressing
  | illegalInstruction
  | divisionByZero
  | cycleLimitExceeded
  | registerIndex
deriving DecidableEq, Repr

/-- The fault record: the kind, and the address of the faulting instruction's opcode (10_state.md R30). -/
structure FaultRecord where
  kind : FaultKind
  pc : Byte
deriving DecidableEq, Repr

/-- Memory as a list of (address, byte): addresses strictly rising and below 256, no byte equal to
`Config.blankCell`, which is what an unlisted address reads as (20_memory.md R50; log 9). `Memory.wf` says so. -/
abbrev Memory := List Host.Cell

/-- The state of the core (10_state.md R20), and the parameter `CYCLE_LIMIT` the host fixed before reset
(10_state.md R33; log 1). -/
structure State where
  mem : Memory
  regs : Regs
  pc : Byte
  sp : Byte
  fl : Flag
  status : RunStatus
  fault : Option FaultRecord
  cycles : Nat
  out : List Byte
  cycleLimit : Option Nat
deriving DecidableEq, Repr

/-- Why the machine can make no step. The five architectural faults are not here: each of them is a next state. -/
inductive Fault where
  /-- Raised by `step` alone, in a state whose status is Halted: "A state with status = Halted has no step"
  (40_execution_loop.md R108). Safe: the hardware makes no step there either (log 2). -/
  | halted
deriving DecidableEq, Repr

/-- What is turned down before anything runs. -/
inductive Refusal where
  /-- Raised only by an arm of `exec` whose instruction has no meaning yet; no arm of this model is one. Safe. -/
  | notModelled (mnemonic : String)
  /-- Raised by `boot` and `hostReset` on an image of more than 256 bytes: "the loader port refuses it, and no run
  starts" (70_reset_and_hazards.md R232). Safe: no step is involved. -/
  | imageTooLong
  /-- Raised by `hostReset` while the machine is Running: reset "can be applied only while no run is in progress"
  (70_reset_and_hazards.md R230). Safe: no step is involved. -/
  | resetWhileRunning
deriving DecidableEq, Repr

/-- The machine right after reset with the empty image (10_state.md R35). A program is loaded by `boot`. -/
def State.reset : State where
  mem := []
  regs := ⟨Config.gpReset, Config.gpReset, Config.gpReset, Config.gpReset, Config.gpReset⟩
  pc := Config.pcReset
  sp := Config.spReset
  fl := .unset
  status := .running
  fault := none
  cycles := 0
  out := []
  cycleLimit := Config.cycleLimitReset

end Sys2Proof.Machine
end

