-- ==== Sys2Proof/Machine/Flags.lean ====
section
/-! DEFINITION. The comparator: the one flag computation of the core (41_alu.md R137; 44_control_flow.md R177), and
the suggested code of FL (10_state.md R28). -/

namespace Sys2Proof.Machine

/-- What CMP writes to FL: an unsigned comparison (41_alu.md R137). -/
def compareFlag (p q : Byte) : Flag :=
  if p.toNat = q.toNat then .equal
  else if p.toNat < q.toNat then .lessThan
  else .greaterThan

/-- The condition JEQ and JNE test; Unset is not Equal (44_control_flow.md R174, R175). -/
def Flag.isEqual : Flag → Bool
  | .equal => true
  | .unset | .greaterThan | .lessThan => false

/-- The suggested 3-bit code, bits 2:0 = L G E (10_state.md R28). A view only: "No rule of this spec depends on the
codes", and no definition of the machine reads it. -/
def Flag.suggestedCode : Flag → BitVec 3
  | .unset => 0b000#3
  | .equal => 0b001#3
  | .greaterThan => 0b010#3
  | .lessThan => 0b100#3

end Sys2Proof.Machine
end

