-- ==== Sys2Proof/Syntax.lean ====
section
/-! DEFINITION. The seventeen instructions (00_scope.md R2; 30_encoding.md R71, R74) and their opcodes' names. -/

namespace Sys2Proof

/-- One constructor per row of the opcode table. A field `a` or `b` is a register operand BYTE, kept whole:
it is never checked when it is fetched, and a value outside 0..4 faults only when the handler decodes it
(30_encoding.md R73, R77; log 6). -/
inductive Instr where
  | hlt
  | ret
  | push (a : Byte)
  | pop (a : Byte)
  | prn (a : Byte)
  | call (a : Byte)
  | jmp (a : Byte)
  | jeq (a : Byte)
  | jne (a : Byte)
  | inc (a : Byte)
  | dec (a : Byte)
  | ldi (a imm : Byte)
  | add (a b : Byte)
  | sub (a b : Byte)
  | mul (a b : Byte)
  | div (a b : Byte)
  | cmp (a b : Byte)
deriving DecidableEq, Repr

/-- The seventeen entries of the dispatch table, by name (40_execution_loop.md R102). -/
inductive Opcode where
  | hlt | ret | push | pop | prn | call | jmp | jeq | jne | inc | dec | ldi | add | sub | mul | div | cmp
deriving DecidableEq, Repr

/-- Who moves PC after the handler (40_execution_loop.md R102, column "who writes PC"). -/
inductive PcOwner where
  | loop
  | handler
deriving DecidableEq, Repr

def Instr.opcode : Instr → Opcode
  | .hlt => .hlt
  | .ret => .ret
  | .push _ => .push
  | .pop _ => .pop
  | .prn _ => .prn
  | .call _ => .call
  | .jmp _ => .jmp
  | .jeq _ => .jeq
  | .jne _ => .jne
  | .inc _ => .inc
  | .dec _ => .dec
  | .ldi _ _ => .ldi
  | .add _ _ => .add
  | .sub _ _ => .sub
  | .mul _ _ => .mul
  | .div _ _ => .div
  | .cmp _ _ => .cmp

/-- The operand bytes in address order, byte 1 first (30_encoding.md R71). -/
def Instr.operandBytes : Instr → List Byte
  | .hlt | .ret => []
  | .push a | .pop a | .prn a | .call a | .jmp a | .jeq a | .jne a | .inc a | .dec a => [a]
  | .ldi a imm => [a, imm]
  | .add a b | .sub a b | .mul a b | .div a b | .cmp a b => [a, b]

/-- The operand bytes that name registers, in the order the handler decodes them; LDI's immediate is not one
(30_encoding.md R72, R77). -/
def Instr.registerBytes : Instr → List Byte
  | .hlt | .ret => []
  | .push a | .pop a | .prn a | .call a | .jmp a | .jeq a | .jne a | .inc a | .dec a | .ldi a _ => [a]
  | .add a b | .sub a b | .mul a b | .div a b | .cmp a b => [a, b]

end Sys2Proof
end

