-- ==== Sys2Proof/WellFormed.lean ====
section
/-! DEFINITION. Which instructions name only registers that exist (10_state.md R21; 30_encoding.md R73). -/

namespace Sys2Proof

/-- A register operand byte that names one of R0..R4 (30_encoding.md R73: 5, 6 and 7 are the PC, FL and SP slots,
8..255 name no slot). -/
def namesRegister (b : Byte) : Bool := b.toNat ≤ 4

/-- Every register operand names one of R0..R4. An instruction that is not well formed still decodes and runs:
it raises RegisterIndexFault (60_exceptions.md R204). -/
def Instr.wellFormed (i : Instr) : Bool := i.registerBytes.all namesRegister

end Sys2Proof
end

