-- ==== Sys2Proof/Decode.lean ====
section
/-! DEFINITION. The opcode and dispatch table, the decoder and the encoder (30_encoding.md R70 to R77;
40_execution_loop.md R102, R103). -/

namespace Sys2Proof

/-- The opcode bytes (30_encoding.md R74; decision D1). The ONE place they stand. UNVERIFIED: log 4. -/
def Opcode.byte : Opcode → Byte
  | .hlt => 0x01#8
  | .ret => 0x11#8
  | .push => 0x45#8
  | .pop => 0x46#8
  | .prn => 0x47#8
  | .call => 0x50#8
  | .jmp => 0x54#8
  | .jeq => 0x55#8
  | .jne => 0x56#8
  | .inc => 0x65#8
  | .dec => 0x66#8
  | .ldi => 0x82#8
  | .add => 0xA0#8
  | .sub => 0xA1#8
  | .mul => 0xA2#8
  | .div => 0xA3#8
  | .cmp => 0xA7#8

/-- N, the number of operand bytes (40_execution_loop.md R102; 90_conflicts.md C1). -/
def Opcode.operandCount : Opcode → Nat
  | .hlt | .ret => 0
  | .push | .pop | .prn | .call | .jmp | .jeq | .jne | .inc | .dec => 1
  | .ldi | .add | .sub | .mul | .div | .cmp => 2

/-- ADV, how far the loop moves PC after the handler (40_execution_loop.md R102; 90_conflicts.md C2). -/
def Opcode.adv : Opcode → Nat
  | .hlt | .ret | .call | .jmp | .jeq | .jne => 0
  | .push | .pop | .prn | .inc | .dec => 2
  | .ldi | .add | .sub | .mul | .div | .cmp => 3

/-- The last column of the dispatch table (40_execution_loop.md R102). -/
def Opcode.pcOwner : Opcode → PcOwner
  | .hlt | .ret | .call | .jmp | .jeq | .jne => .handler
  | .push | .pop | .prn | .inc | .dec | .ldi | .add | .sub | .mul | .div | .cmp => .loop

/-- L = 1 + N (30_encoding.md R70). -/
def Opcode.length (o : Opcode) : Nat := 1 + o.operandCount

/-- The dispatch table's keys, in the order of 40_execution_loop.md R102. -/
def Opcode.all : List Opcode :=
  [.hlt, .ret, .push, .pop, .prn, .call, .jmp, .jeq, .jne, .inc, .dec, .ldi, .add, .sub, .mul, .div, .cmp]

/-- The dispatch table's lookup: the WHOLE byte selects (30_encoding.md R74, R75). -/
def Opcode.ofByte (b : Byte) : Option Opcode := Opcode.all.find? (fun o => o.byte == b)

/-- Why bytes are no instruction. -/
inductive Reject where
  /-- Byte 0 is not in the dispatch table (30_encoding.md R76). -/
  | illegalOpcode (b : Byte)
  /-- Byte `k` of the instruction is not there (20_memory.md R54: it would lie past the last address). -/
  | missingByte (k : Nat)
deriving DecidableEq, Repr

/-- A one-operand instruction: byte 1 is read whole (30_encoding.md R71, format FR). -/
def withOperand (rd : Nat → Option Byte) (mk : Byte → Instr) : Except Reject Instr :=
  match rd 1 with
  | none => .error (.missingByte 1)
  | some a => .ok (mk a)

/-- A two-operand instruction: byte 1, then byte 2 (30_encoding.md R71, formats FRR and FRI;
60_exceptions.md R207 point 3). -/
def withOperands (rd : Nat → Option Byte) (mk : Byte → Byte → Instr) : Except Reject Instr :=
  match rd 1 with
  | none => .error (.missingByte 1)
  | some a =>
    match rd 2 with
    | none => .error (.missingByte 2)
    | some b => .ok (mk a b)

/-- The instruction of a known opcode: its N operand bytes, in order (40_execution_loop.md R104, step 2). -/
def decodeOperands (rd : Nat → Option Byte) (o : Opcode) : Except Reject Instr :=
  match o with
  | .hlt => .ok .hlt
  | .ret => .ok .ret
  | .push => withOperand rd .push
  | .pop => withOperand rd .pop
  | .prn => withOperand rd .prn
  | .call => withOperand rd .call
  | .jmp => withOperand rd .jmp
  | .jeq => withOperand rd .jeq
  | .jne => withOperand rd .jne
  | .inc => withOperand rd .inc
  | .dec => withOperand rd .dec
  | .ldi => withOperands rd .ldi
  | .add => withOperands rd .add
  | .sub => withOperands rd .sub
  | .mul => withOperands rd .mul
  | .div => withOperands rd .div
  | .cmp => withOperands rd .cmp

/-- The decoder, over any source of bytes: `rd k` is byte k of the instruction, `none` where there is none.
Both `decode` (a list) and the loop's fetch (memory at PC) are this one function. The opcode is looked up before
any operand byte is asked for (40_execution_loop.md R104; 60_exceptions.md R202). -/
def decodeFrom (rd : Nat → Option Byte) : Except Reject Instr :=
  match rd 0 with
  | none => .error (.missingByte 0)
  | some b =>
    match Opcode.ofByte b with
    | none => .error (.illegalOpcode b)
    | some o => decodeOperands rd o

/-- Decode the instruction at the head of a byte list; the answer holds the bytes after it. Total on any bytes. -/
def decode (bs : List Byte) : Except Reject (Instr × List Byte) :=
  match decodeFrom (fun k => bs[k]?) with
  | .error r => .error r
  | .ok i => .ok (i, bs.drop i.opcode.length)

/-- The bytes of an instruction in address order (20_memory.md R53; 30_encoding.md R71). -/
def encode (i : Instr) : List Byte := i.opcode.byte :: i.operandBytes

/-- The three bytes of an instruction word numbered as spec/opcode_table.json numbers it: the first byte is the word's
low byte, and every bit from `nbits` up is zero. Three is the longest instruction (30_encoding.md R70). -/
def tableWordBytes (nbits w : Nat) : List Byte :=
  let v := w % 2 ^ nbits
  [BitVec.ofNat 8 v, BitVec.ofNat 8 (v / 2 ^ 8), BitVec.ofNat 8 (v / 2 ^ 16)]

/-- What the decoder reads from a word of the opcode table. -/
def decodeTableWord (nbits w : Nat) : Option Instr :=
  match decode (tableWordBytes nbits w) with
  | .error _ => none
  | .ok (i, _) => some i

end Sys2Proof
end

