-- ==== Sys2Proof/Machine/Ops.lean ====
section
/-! DEFINITION. The primitives of 00_scope.md R8 over memory, registers and the run state; the taking of a fault
(60_exceptions.md R206); and how a handler's staged writes commit (40_execution_loop.md R104).

A handler is an `Except FaultKind State`: `.ok t` is the state with its writes staged, `.error k` is `raise k`, which
drops them. A handler reads from the state it started in and stages into another name, so a read never sees a staged
write (00_scope.md R8). -/

namespace Sys2Proof.Machine

/-! ### Bytes and addresses -/

/-- A byte's value as an unbounded integer (00_scope.md R7). -/
def val (b : Byte) : Int := b.toNat

/-- `u8(v)`: v modulo 256 (00_scope.md R7). -/
def u8 (v : Int) : Byte := BitVec.ofInt 8 v

/-- The one range check of the machine: an address, a PC or an SP must lie in 0..255; outside, AddressingFault and no
wraparound (00_scope.md R8; 20_memory.md R51). -/
def asAddress (v : Int) : Except FaultKind Byte :=
  match v with
  | .ofNat n => if n < Config.memSize then .ok (u8 v) else .error .addressing
  | .negSucc _ => .error .addressing

/-! ### Memory -/

/-- The cell at `a`. -/
def Memory.read (m : Memory) (a : Nat) : Byte :=
  match m with
  | [] => Config.blankCell
  | (k, v) :: rest => if k = a then v else Memory.read rest a

/-- Put byte `v` before the cells `m`, all above `a`, unless it is what an unlisted cell holds. -/
def Memory.consCell (a : Nat) (v : Byte) (m : Memory) : Memory :=
  if v = Config.blankCell then m else (a, v) :: m

/-- Set the cell at `a`, keeping the canonical form. -/
def Memory.write (m : Memory) (a : Nat) (v : Byte) : Memory :=
  match m with
  | [] => Memory.consCell a v []
  | (k, w) :: rest =>
    if a < k then Memory.consCell a v ((k, w) :: rest)
    else if a = k then Memory.consCell a v rest
    else (k, w) :: Memory.write rest a v

/-- Write bytes to `a`, `a + 1`, … in order, "with no gaps" (70_reset_and_hazards.md R232). -/
def Memory.writeBytes (m : Memory) (a : Nat) (bs : List Byte) : Memory :=
  match bs with
  | [] => m
  | b :: rest => Memory.writeBytes (Memory.write m a b) (a + 1) rest

/-- The canonical form, from address `lo` up. -/
def Memory.wfFrom (lo : Nat) (m : Memory) : Bool :=
  match m with
  | [] => true
  | (k, v) :: rest => decide (lo ≤ k) && decide (k < Config.memSize) && (v != Config.blankCell) && Memory.wfFrom (k + 1) rest

/-- The canonical form: addresses strictly rising, all in 0..255, no byte equal to what an unlisted cell holds. -/
def Memory.wf (m : Memory) : Bool := Memory.wfFrom 0 m

/-! ### Registers -/

def Regs.get (x : Regs) : Reg → Byte
  | .r0 => x.r0
  | .r1 => x.r1
  | .r2 => x.r2
  | .r3 => x.r3
  | .r4 => x.r4

def Regs.set (x : Regs) (r : Reg) (v : Byte) : Regs :=
  match r with
  | .r0 => { x with r0 := v }
  | .r1 => { x with r1 := v }
  | .r2 => { x with r2 := v }
  | .r3 => { x with r3 := v }
  | .r4 => { x with r4 := v }

/-- `x[r]` (00_scope.md R8). -/
def State.getReg (s : State) (r : Reg) : Byte := s.regs.get r

/-- `x[r] <- v` (00_scope.md R8). -/
def State.setReg (s : State) (r : Reg) (v : Byte) : State := { s with regs := s.regs.set r v }

/-! ### The primitives of 00_scope.md R8 -/

/-- `MemRead(addr, 1)`. -/
def memRead (addr : Int) (s : State) : Except FaultKind Byte :=
  match asAddress addr with
  | .error k => .error k
  | .ok a => .ok (s.mem.read a.toNat)

/-- `MemWrite(addr, 1, v)`. -/
def memWrite (addr : Int) (v : Byte) (s : State) : Except FaultKind State :=
  match asAddress addr with
  | .error k => .error k
  | .ok a => .ok { s with mem := s.mem.write a.toNat v }

/-- `SetPC(v)`. -/
def setPC (v : Int) (s : State) : Except FaultKind State :=
  match asAddress v with
  | .error k => .error k
  | .ok a => .ok { s with pc := a }

/-- `SetSP(v)`. -/
def setSP (v : Int) (s : State) : Except FaultKind State :=
  match asAddress v with
  | .error k => .error k
  | .ok a => .ok { s with sp := a }

/-- `FL <- f`. -/
def State.setFL (s : State) (f : Flag) : State := { s with fl := f }

/-- `Emit(v)` (10_state.md R32). -/
def State.emit (s : State) (v : Byte) : State := { s with out := s.out ++ [v] }

/-- `Halt()`. -/
def State.halt (s : State) : State := { s with status := .halted }

/-! ### The stack (43_stack.md R160) -/

/-- Decrement SP, then write at the new SP; AddressingFault if SP was 0 (43_stack.md R161). -/
def stackPush (v : Byte) (s : State) : Except FaultKind State := do
  let t ← memWrite (val s.sp - 1) v s
  setSP (val s.sp - 1) t

/-- Read at SP, then increment SP; AddressingFault if SP was 255. The cell is not cleared (43_stack.md R162). -/
def stackPop (s : State) : Except FaultKind (Byte × State) := do
  let v ← memRead (val s.sp) s
  let t ← setSP (val s.sp + 1) s
  pure (v, t)

/-! ### Faults -/

/-- Taking fault `k` at the instruction at PC: nothing of the instruction commits, the machine halts and the record is
written; nothing else is saved and control goes nowhere (60_exceptions.md R206). There is no return from a fault
(R209): a run continues only from a new reset (`hostReset`). -/
def takeFault (k : FaultKind) (s : State) : State :=
  { s with status := .halted, fault := some ⟨k, s.pc⟩ }

/-! ### Sequencing and commit -/

/-- Step 4 of the loop: move PC by ADV unless the handler owns it; `pc` is the instruction's own address
(40_execution_loop.md R104, R106). -/
def sequence (op : Opcode) (pc : Byte) (t : State) : Except FaultKind State :=
  if op.adv = 0 then .ok t else setPC (val pc + op.adv) t

/-- The count that every commit raises (10_state.md R31). -/
def State.countCycle (t : State) : State := { t with cycles := t.cycles + 1 }

/-- Steps 3 and 4 and the commit of 40_execution_loop.md R104 for one handler started in `s`. -/
def runHandler (op : Opcode) (s : State) (handler : Except FaultKind State) :
    Host.Outcome State Fault Refusal :=
  match handler with
  | .error k => .next (takeFault k s)
  | .ok t =>
    match sequence op s.pc t with
    | .error k => .next (takeFault k s)
    | .ok u => .next u.countCycle

end Sys2Proof.Machine
end

