-- ==== Sys2Proof/Machine/Operands.lean ====
section
/-! DEFINITION. The two operand forms: a register index and an immediate (30_encoding.md R72, R73). -/

namespace Sys2Proof.Machine

/-- The byte that names a register (10_state.md R21). -/
def Reg.byte : Reg → Byte
  | .r0 => 0#8
  | .r1 => 1#8
  | .r2 => 2#8
  | .r3 => 3#8
  | .r4 => 4#8

/-- `RegIdx(k)` on operand byte `b`: 0..4 name R0..R4, every other byte raises RegisterIndexFault (30_encoding.md R73). -/
def regIdx (b : Byte) : Except FaultKind Reg :=
  match b.toNat with
  | 0 => .ok .r0
  | 1 => .ok .r1
  | 2 => .ok .r2
  | 3 => .ok .r3
  | 4 => .ok .r4
  | _ => .error .registerIndex

/-- `Imm(k)` on operand byte `b`: the byte's unsigned value, never checked, never extended (30_encoding.md R72). -/
def imm (b : Byte) : Byte := b

end Sys2Proof.Machine
end

