-- ==== Sys2Proof/Machine/Alu.lean ====
section
/-! DEFINITION. ADD, SUB, MUL, DIV, INC, DEC and CMP (41_alu.md R130 to R138). -/

namespace Sys2Proof.Machine

/-- The shape ADD, SUB and MUL share: decode both register operands, then `x[a] <- u8(f(x[a], x[b]))` (41_alu.md R130). -/
def binaryHandler (f : Int → Int → Int) (a b : Byte) (s : State) : Except FaultKind State := do
  let ra ← regIdx a
  let rb ← regIdx b
  pure (s.setReg ra (u8 (f (val (s.getReg ra)) (val (s.getReg rb)))))

/-- The shape INC and DEC share: `x[a] <- u8(f(x[a]))` (41_alu.md R130). -/
def unaryHandler (f : Int → Int) (a : Byte) (s : State) : Except FaultKind State := do
  let ra ← regIdx a
  pure (s.setReg ra (u8 (f (val (s.getReg ra)))))

/-- DIV's handler: both operands decode before the divisor is checked (41_alu.md R134; 60_exceptions.md R203). The
quotient of two values that are not negative is rounded toward zero (00_scope.md R7). -/
def divHandler (a b : Byte) (s : State) : Except FaultKind State := do
  let ra ← regIdx a
  let rb ← regIdx b
  if val (s.getReg rb) = 0 then .error .divisionByZero
  else pure (s.setReg ra (u8 (val (s.getReg ra) / val (s.getReg rb))))

/-- CMP's handler (41_alu.md R137). -/
def cmpHandler (a b : Byte) (s : State) : Except FaultKind State := do
  let ra ← regIdx a
  let rb ← regIdx b
  pure (s.setFL (compareFlag (s.getReg ra) (s.getReg rb)))

/-- ADD (41_alu.md R131). -/
def execAdd (a b : Byte) (s : State) : Host.Outcome State Fault Refusal :=
  runHandler .add s (binaryHandler (fun p q => p + q) a b s)

/-- SUB (41_alu.md R132). -/
def execSub (a b : Byte) (s : State) : Host.Outcome State Fault Refusal :=
  runHandler .sub s (binaryHandler (fun p q => p - q) a b s)

/-- MUL (41_alu.md R133). -/
def execMul (a b : Byte) (s : State) : Host.Outcome State Fault Refusal :=
  runHandler .mul s (binaryHandler (fun p q => p * q) a b s)

/-- DIV (41_alu.md R134). -/
def execDiv (a b : Byte) (s : State) : Host.Outcome State Fault Refusal :=
  runHandler .div s (divHandler a b s)

/-- INC (41_alu.md R135). -/
def execInc (a : Byte) (s : State) : Host.Outcome State Fault Refusal :=
  runHandler .inc s (unaryHandler (fun p => p + 1) a s)

/-- DEC (41_alu.md R136). -/
def execDec (a : Byte) (s : State) : Host.Outcome State Fault Refusal :=
  runHandler .dec s (unaryHandler (fun p => p - 1) a s)

/-- CMP (41_alu.md R137). -/
def execCmp (a b : Byte) (s : State) : Host.Outcome State Fault Refusal :=
  runHandler .cmp s (cmpHandler a b s)

end Sys2Proof.Machine
end

