-- ==== Sys2Proof/Machine/Control.lean ====
section
/-! DEFINITION. CALL, RET, JMP, JEQ and JNE (44_control_flow.md R170 to R177) and HLT (40_execution_loop.md R107):
the handlers that own PC. -/

namespace Sys2Proof.Machine

/-- CALL's handler: the target is read before the push, and the return address PC + 2 must be an address
(44_control_flow.md R171). -/
def callHandler (a : Byte) (s : State) : Except FaultKind State := do
  let ra ← regIdx a
  let ret ← asAddress (val s.pc + 2)
  let t ← stackPush ret s
  setPC (val (s.getReg ra)) t

/-- RET's handler (44_control_flow.md R172). -/
def retHandler (s : State) : Except FaultKind State := do
  let (v, t) ← stackPop s
  setPC (val v) t

/-- JMP's handler (44_control_flow.md R173). -/
def jmpHandler (a : Byte) (s : State) : Except FaultKind State := do
  let ra ← regIdx a
  setPC (val (s.getReg ra)) s

/-- The branch JEQ and JNE share: to x[a] when `taken`, else past the operand byte. The index is decoded either way
(44_control_flow.md R174, R175). -/
def branchHandler (taken : Bool) (a : Byte) (s : State) : Except FaultKind State := do
  let ra ← regIdx a
  if taken then setPC (val (s.getReg ra)) s else setPC (val s.pc + 2) s

/-- HLT's handler: PC past the HLT, then Halted (40_execution_loop.md R107). -/
def hltHandler (s : State) : Except FaultKind State := do
  let t ← setPC (val s.pc + 1) s
  pure t.halt

/-- HLT (40_execution_loop.md R107). -/
def execHlt (s : State) : Host.Outcome State Fault Refusal :=
  runHandler .hlt s (hltHandler s)

/-- CALL (44_control_flow.md R171). -/
def execCall (a : Byte) (s : State) : Host.Outcome State Fault Refusal :=
  runHandler .call s (callHandler a s)

/-- RET (44_control_flow.md R172). -/
def execRet (s : State) : Host.Outcome State Fault Refusal :=
  runHandler .ret s (retHandler s)

/-- JMP (44_control_flow.md R173). -/
def execJmp (a : Byte) (s : State) : Host.Outcome State Fault Refusal :=
  runHandler .jmp s (jmpHandler a s)

/-- JEQ (44_control_flow.md R174). -/
def execJeq (a : Byte) (s : State) : Host.Outcome State Fault Refusal :=
  runHandler .jeq s (branchHandler s.fl.isEqual a s)

/-- JNE (44_control_flow.md R175). -/
def execJne (a : Byte) (s : State) : Host.Outcome State Fault Refusal :=
  runHandler .jne s (branchHandler (!s.fl.isEqual) a s)

end Sys2Proof.Machine
end

