-- ==== Sys2Proof/Machine/DataMovement.lean ====
section
/-! DEFINITION. LDI and PRN (42_data_movement.md R150, R151). -/

namespace Sys2Proof.Machine

/-- LDI's handler: `x[a] <- Imm(2)` (42_data_movement.md R150). -/
def ldiHandler (a i : Byte) (s : State) : Except FaultKind State := do
  let ra ← regIdx a
  pure (s.setReg ra (imm i))

/-- PRN's handler: `Emit(x[a])` (42_data_movement.md R151). -/
def prnHandler (a : Byte) (s : State) : Except FaultKind State := do
  let ra ← regIdx a
  pure (s.emit (s.getReg ra))

/-- LDI (42_data_movement.md R150). -/
def execLdi (a i : Byte) (s : State) : Host.Outcome State Fault Refusal :=
  runHandler .ldi s (ldiHandler a i s)

/-- PRN (42_data_movement.md R151). -/
def execPrn (a : Byte) (s : State) : Host.Outcome State Fault Refusal :=
  runHandler .prn s (prnHandler a s)

end Sys2Proof.Machine
end

