-- ==== Sys2Proof/Machine/Stack.lean ====
section
/-! DEFINITION. PUSH and POP (43_stack.md R160 to R163). -/

namespace Sys2Proof.Machine

/-- PUSH's handler (43_stack.md R161). -/
def pushHandler (a : Byte) (s : State) : Except FaultKind State := do
  let ra ← regIdx a
  stackPush (s.getReg ra) s

/-- POP's handler (43_stack.md R162). -/
def popHandler (a : Byte) (s : State) : Except FaultKind State := do
  let ra ← regIdx a
  let (v, t) ← stackPop s
  pure (t.setReg ra v)

/-- PUSH (43_stack.md R161). -/
def execPush (a : Byte) (s : State) : Host.Outcome State Fault Refusal :=
  runHandler .push s (pushHandler a s)

/-- POP (43_stack.md R162). -/
def execPop (a : Byte) (s : State) : Host.Outcome State Fault Refusal :=
  runHandler .pop s (popHandler a s)

end Sys2Proof.Machine
end

