-- ==== Sys2Proof/Machine/Fetch.lean ====
section
/-! DEFINITION. The cycle-limit guard, the fetch and the decode of one step (40_execution_loop.md R104, steps 0 to 2),
and the placing of an instruction at PC. -/

namespace Sys2Proof.Machine

/-- Step 0: the guard fires when `CYCLE_LIMIT = some L` and `cycles ≥ L` (60_exceptions.md R205). -/
def guardFires (s : State) : Bool :=
  match s.cycleLimit with
  | none => false
  | some limit => limit ≤ s.cycles

/-- Byte k of the instruction at PC: `MemRead(pc + k, 1)`, and nothing past address 255 (20_memory.md R51, R52). -/
def codeByte (s : State) (k : Nat) : Option Byte :=
  match memRead (val s.pc + k) s with
  | .error _ => none
  | .ok b => some b

/-- Steps 1 and 2: fetch the opcode, look it up, then fetch its operand bytes in order (40_execution_loop.md R104). A byte
that is not in the table raises IllegalInstruction; an operand byte past 255 raises AddressingFault. -/
def fetch (s : State) : Except FaultKind Instr :=
  match decodeFrom (codeByte s) with
  | .ok i => .ok i
  | .error (.illegalOpcode _) => .error .illegalInstruction
  | .error (.missingByte _) => .error .addressing

/-- The bytes from PC to the top of memory: all that a fetch can see. -/
def codeBytes (s : State) : List Byte :=
  (List.range (Config.memSize - s.pc.toNat)).map (fun k => s.mem.read (s.pc.toNat + k))

/-- Memory with bytes stored at PC, PC + 1, …; what would lie past address 255 is left out. -/
def placeAtPC (s : State) (bs : List Byte) : Memory :=
  s.mem.writeBytes s.pc.toNat (bs.take (Config.memSize - s.pc.toNat))

end Sys2Proof.Machine
end

