-- ==== Sys2Proof/Machine/Loop.lean ====
section
/-! DEFINITION. One pass of the execution loop (40_execution_loop.md R104, R108). -/

namespace Sys2Proof.Machine

/-- `Step(s)` of 40_execution_loop.md R104; a Halted state has no step (R108; log 2). -/
def loopStep (s : State) : Host.Outcome State Fault Refusal :=
  match s.status with
  | .halted => .fault .halted
  | .running =>
    if guardFires s then .next (takeFault .cycleLimitExceeded s)
    else
      match fetch s with
      | .error k => .next (takeFault k s)
      | .ok i => exec i s

end Sys2Proof.Machine
end

