-- ==== Sys2Proof/Machine/Step.lean ====
section
/-! DEFINITION. The machine's step, and the placing of an instruction word where the next step fetches it. -/

namespace Sys2Proof.Machine

/-- One step of the machine (40_execution_loop.md R104). -/
def step (s : State) : Host.Outcome State Fault Refusal := loopStep s

/-- `s` with the instruction word `w` of the opcode table stored at PC, where `step` fetches. It stands for the loader
(70_reset_and_hazards.md R232; log 7). -/
def State.withFetchWord (s : State) (nbits w : Nat) : State :=
  { s with mem := placeAtPC s (tableWordBytes nbits w) }

end Sys2Proof.Machine
end

