-- ==== Sys2Proof/Machine/HostPort.lean ====
section
/-! DEFINITION. The host's interfaces (40_execution_loop.md R112): reset and the loader port, the status port and the
readout. The host has no move while the machine is Running (70_reset_and_hazards.md R237), so none of these is part of
`step`. -/

namespace Sys2Proof.Machine

/-- Reset, with `CYCLE_LIMIT` fixed and the image written from address 0 up (70_reset_and_hazards.md R230, R232). An image
of more than 256 bytes is refused and no run starts. -/
def boot (limit : Option Nat) (image : List Byte) : Host.Outcome State Fault Refusal :=
  if image.length ≤ Config.memSize then
    .next { State.reset with mem := Memory.writeBytes [] 0 image, cycleLimit := limit }
  else .refused .imageTooLong

/-- A reset after a run: only once the machine is Halted (70_reset_and_hazards.md R230; 40_execution_loop.md R108). -/
def hostReset (s : State) (limit : Option Nat) (image : List Byte) : Host.Outcome State Fault Refusal :=
  match s.status with
  | .running => .refused .resetWhileRunning
  | .halted => boot limit image

/-- The status port's fields (10_state.md R33). -/
structure StatusPort where
  halted : BitVec 1
  faultKind : BitVec 3
  faultPc : Byte
  cycles : Nat
deriving DecidableEq, Repr

/-- The fault codes (10_state.md R33; 60_exceptions.md R200; decision D16). -/
def faultCode : FaultKind → BitVec 3
  | .addressing => 1#3
  | .illegalInstruction => 2#3
  | .divisionByZero => 3#3
  | .cycleLimitExceeded => 4#3
  | .registerIndex => 5#3

/-- HALTED (10_state.md R33). -/
def haltedBit : RunStatus → BitVec 1
  | .running => 0#1
  | .halted => 1#1

/-- The values the status port carries (10_state.md R33): kind 0 and PC 0 where there is no fault. -/
def statusFields (s : State) : StatusPort :=
  match s.fault with
  | none => ⟨haltedBit s.status, 0#3, 0#8, s.cycles⟩
  | some r => ⟨haltedBit s.status, faultCode r.kind, r.pc, s.cycles⟩

/-- The status port: "readable when status = Halted" (40_execution_loop.md R112). -/
def readStatus (s : State) : Option StatusPort :=
  match s.status with
  | .running => none
  | .halted => some (statusFields s)

/-- What a run reports to the host (40_execution_loop.md R109). -/
structure Report where
  mem : Memory
  regs : Regs
  pc : Byte
  sp : Byte
  fl : Flag
  fault : Option FaultRecord
  cycles : Nat
  out : List Byte
deriving DecidableEq, Repr

/-- The final tuple, readable when Halted (40_execution_loop.md R109, R112). -/
def finalReport (s : State) : Option Report :=
  match s.status with
  | .running => none
  | .halted => some ⟨s.mem, s.regs, s.pc, s.sp, s.fl, s.fault, s.cycles, s.out⟩

end Sys2Proof.Machine
end

