-- ==== Sys2Proof/Machine/Assembly.lean ====
section
/-! DEFINITION. The assembly syntax of 30_encoding.md R78 (decision D26), as text to and from instructions. Notation only:
no step of the machine depends on it (log 8). -/

namespace Sys2Proof.Machine

/-- The mnemonics (00_scope.md R2). -/
def mnemonicText : Opcode → List Char
  | .hlt => ['H', 'L', 'T']
  | .ret => ['R', 'E', 'T']
  | .push => ['P', 'U', 'S', 'H']
  | .pop => ['P', 'O', 'P']
  | .prn => ['P', 'R', 'N']
  | .call => ['C', 'A', 'L', 'L']
  | .jmp => ['J', 'M', 'P']
  | .jeq => ['J', 'E', 'Q']
  | .jne => ['J', 'N', 'E']
  | .inc => ['I', 'N', 'C']
  | .dec => ['D', 'E', 'C']
  | .ldi => ['L', 'D', 'I']
  | .add => ['A', 'D', 'D']
  | .sub => ['S', 'U', 'B']
  | .mul => ['M', 'U', 'L']
  | .div => ['D', 'I', 'V']
  | .cmp => ['C', 'M', 'P']

def opcodeOfText (cs : List Char) : Option Opcode := Opcode.all.find? (fun o => mnemonicText o == cs)

def digitChar (n : Nat) : Char := Char.ofNat (48 + n)

/-- A byte in decimal, without leading zeros. -/
def decimalText (b : Byte) : List Char :=
  let n := b.toNat
  if n < 10 then [digitChar n]
  else if n < 100 then [digitChar (n / 10), digitChar (n % 10)]
  else [digitChar (n / 100), digitChar (n / 10 % 10), digitChar (n % 10)]

/-- `Rn`, n = 0..4; there is no text for another operand byte. -/
def registerText (b : Byte) : Option (List Char) :=
  if namesRegister b then some ['R', digitChar b.toNat] else none

/-- The text of an instruction; none where a register operand byte names no register. -/
def asmText (i : Instr) : Option (List Char) :=
  match i with
  | .hlt | .ret => some (mnemonicText i.opcode)
  | .push a | .pop a | .prn a | .call a | .jmp a | .jeq a | .jne a | .inc a | .dec a => do
    let ta ← registerText a
    some (mnemonicText i.opcode ++ ' ' :: ta)
  | .ldi a imm => do
    let ta ← registerText a
    some (mnemonicText i.opcode ++ ' ' :: ta ++ ',' :: decimalText imm)
  | .add a b | .sub a b | .mul a b | .div a b | .cmp a b => do
    let ta ← registerText a
    let tb ← registerText b
    some (mnemonicText i.opcode ++ ' ' :: ta ++ ',' :: tb)

/-- The value of a digit in base 10 or 16, either case. -/
def digitValue (base : Nat) (c : Char) : Option Nat :=
  let n := c.toNat
  let d := if 48 ≤ n ∧ n ≤ 57 then n - 48 else if 65 ≤ n ∧ n ≤ 70 then n - 55 else if 97 ≤ n ∧ n ≤ 102 then n - 87 else base
  if d < base then some d else none

/-- The number a digit string stands for, after the digits read so far. -/
def numberFrom (base acc : Nat) : List Char → Option Nat
  | [] => some acc
  | c :: cs => do
    let d ← digitValue base c
    numberFrom base (acc * base + d) cs

/-- A number of at least one digit that fits a byte. -/
def byteNumber (base : Nat) (cs : List Char) : Option Byte :=
  match cs with
  | [] => none
  | _ => do
    let n ← numberFrom base 0 cs
    if n < 256 then some (BitVec.ofNat 8 n) else none

/-- An immediate, decimal or `0x` hexadecimal. -/
def parseImmediate : List Char → Option Byte
  | '0' :: 'x' :: cs => byteNumber 16 cs
  | cs => byteNumber 10 cs

/-- `R0`..`R4`. -/
def parseRegister : List Char → Option Byte
  | ['R', c] => do
    let d ← digitValue 10 c
    if d ≤ 4 then some (BitVec.ofNat 8 d) else none
  | _ => none

def trim (cs : List Char) : List Char :=
  ((cs.dropWhile (· == ' ')).reverse.dropWhile (· == ' ')).reverse

/-- A one-register form. -/
def parseOne (mk : Byte → Instr) (ops : List (List Char)) : Option Instr :=
  match ops with
  | [ta] => do
    let a ← parseRegister ta
    some (mk a)
  | _ => none

/-- A two-operand form whose second operand is read by `second`. -/
def parseTwo (mk : Byte → Byte → Instr) (second : List Char → Option Byte) (ops : List (List Char)) : Option Instr :=
  match ops with
  | [ta, tb] => do
    let a ← parseRegister ta
    let b ← second tb
    some (mk a b)
  | _ => none

/-- The operands of each mnemonic (30_encoding.md R78). -/
def parseOperands (o : Opcode) (ops : List (List Char)) : Option Instr :=
  match o with
  | .hlt => if ops = [[]] then some .hlt else none
  | .ret => if ops = [[]] then some .ret else none
  | .push => parseOne .push ops
  | .pop => parseOne .pop ops
  | .prn => parseOne .prn ops
  | .call => parseOne .call ops
  | .jmp => parseOne .jmp ops
  | .jeq => parseOne .jeq ops
  | .jne => parseOne .jne ops
  | .inc => parseOne .inc ops
  | .dec => parseOne .dec ops
  | .ldi => parseTwo .ldi parseImmediate ops
  | .add => parseTwo .add parseRegister ops
  | .sub => parseTwo .sub parseRegister ops
  | .mul => parseTwo .mul parseRegister ops
  | .div => parseTwo .div parseRegister ops
  | .cmp => parseTwo .cmp parseRegister ops

/-- One statement: the mnemonic, a space, then the operands separated by commas. -/
def parseStatement (cs : List Char) : Option Instr := do
  let body := trim cs
  let o ← opcodeOfText (body.takeWhile (· != ' '))
  parseOperands o (((body.dropWhile (· != ' ')).splitOn ',').map trim)

/-- A program in the form of the source's scenarios, statements separated by semicolons, to its instructions. -/
def parseProgram (cs : List Char) : Option (List Instr) := (cs.splitOn ';').mapM parseStatement

/-- The image of a program: its instructions' bytes from address 0 up, with no gaps (70_reset_and_hazards.md R232). -/
def assemble (cs : List Char) : Option (List Byte) := do
  let is ← parseProgram cs
  some (is.flatMap encode)

end Sys2Proof.Machine
end

