-- ==== Sys2Proof/Safety.lean ====
section
/-! DEFINITION. The terms the statements use: when the next instruction is fetched, what a fault is in full, the
invariant, runs of the machine, and the spec's tables of opcode bytes, widths, faults and next PCs written out a second
time, from the spec and not from the decoder, so that a statement compares the two. -/

namespace Sys2Proof.Machine

/-! ### States and runs -/

/-- The loop will fetch: Running, and the guard does not fire (40_execution_loop.md R104). -/
def State.Ready (s : State) : Prop := s.status = .running ∧ guardFires s = false

/-- 10_state.md R36, in the clauses that the field types do not give already: memory is in its canonical form, with every
address in 0..255, and a Running machine has no fault recorded. -/
def State.Inv (s : State) : Prop := s.mem.wf = true ∧ (s.status = .running → s.fault = none)

/-- `t` comes from `s` by some number of steps, each from a state in which `P` holds. -/
inductive StepsWhile (P : State → Prop) : State → State → Prop where
  | refl (s : State) : StepsWhile P s s
  | tail {s t u : State} : StepsWhile P s t → P t → step t = .next u → StepsWhile P s u

/-- `t` is reachable from `s` by steps. -/
def Reaches (s t : State) : Prop := StepsWhile (fun _ => True) s t

/-- A state that some run from a reset reaches (10_state.md R36). -/
def State.Reachable (t : State) : Prop := ∃ limit image s, boot limit image = .next s ∧ Reaches s t

/-- A run that ended through HLT (40_execution_loop.md R109). -/
def State.CleanHalt (s : State) : Prop := s.status = .halted ∧ s.fault = none

/-- The instruction committed: it is counted, and a faulting one is not (10_state.md R31). -/
def Committed (s t : State) : Prop := t.cycles = s.cycles + 1

/-! ### Faults, written out -/

/-- `s` after fault `k` (60_exceptions.md R206): nothing but the run state and the record. -/
def State.stoppedBy (s : State) (k : FaultKind) : State := { s with status := .halted, fault := some ⟨k, s.pc⟩ }

/-- Running the instruction raises fault `k`. -/
def FaultsWith (k : FaultKind) (i : Instr) (s : State) : Prop := exec i s = .next (s.stoppedBy k)

/-- Every fetch of an instruction of `n` operand bytes with opcode `op` raises AddressingFault where its last operand byte
would lie past address 255 (60_exceptions.md R201). -/
def OperandFetchFaults (op : Byte) (n : Nat) : Prop :=
  ∀ s : State, s.Ready → s.mem.read s.pc.toNat = op → 255 < s.pc.toNat + n → step s = .next (s.stoppedBy .addressing)

/-! ### The spec's tables by opcode byte (30_encoding.md R74; 40_execution_loop.md R102) -/

/-- The opcode byte at PC. -/
def State.opcodeByte (s : State) : Byte := s.mem.read s.pc.toNat

/-- Operand byte k of the instruction at PC. -/
def State.operandByte (s : State) (k : Nat) : Byte := s.mem.read (s.pc.toNat + k)

/-- The seventeen opcode bytes. -/
def tableOpcodes : List Byte :=
  [0x01#8, 0x11#8, 0x45#8, 0x46#8, 0x47#8, 0x50#8, 0x54#8, 0x55#8, 0x56#8, 0x65#8, 0x66#8, 0x82#8,
   0xA0#8, 0xA1#8, 0xA2#8, 0xA3#8, 0xA7#8]

/-- N by opcode byte. -/
def tableN (op : Byte) : Nat :=
  if op ∈ [0x01#8, 0x11#8] then 0
  else if op ∈ [0x45#8, 0x46#8, 0x47#8, 0x50#8, 0x54#8, 0x55#8, 0x56#8, 0x65#8, 0x66#8] then 1
  else 2

/-- ADV by opcode byte. -/
def tableAdv (op : Byte) : Nat :=
  if op ∈ [0x01#8, 0x11#8, 0x50#8, 0x54#8, 0x55#8, 0x56#8] then 0
  else if op ∈ [0x45#8, 0x46#8, 0x47#8, 0x65#8, 0x66#8] then 2
  else 3

/-- The opcode bytes of format FRR, whose byte 2 names a register (30_encoding.md R71). -/
def tableTwoRegister : List Byte := [0xA0#8, 0xA1#8, 0xA2#8, 0xA3#8, 0xA7#8]

/-- The value of the register that an operand byte names; 0 where it names none, which no statement reads. -/
def State.operandValue (s : State) (b : Byte) : Byte :=
  if b = 0#8 then s.regs.r0
  else if b = 1#8 then s.regs.r1
  else if b = 2#8 then s.regs.r2
  else if b = 3#8 then s.regs.r3
  else if b = 4#8 then s.regs.r4
  else 0#8

/-! ### The faults of one step in their order (60_exceptions.md R207) -/

/-- Point 4: a register operand byte above 4. -/
def State.badIndex (s : State) : Prop :=
  (1 ≤ tableN s.opcodeByte ∧ 4 < (s.operandByte 1).toNat) ∨
    (s.opcodeByte ∈ tableTwoRegister ∧ 4 < (s.operandByte 2).toNat)

/-- Point 5: DIV with divisor 0. -/
def State.zeroDivisor (s : State) : Prop :=
  s.opcodeByte = 0xA3#8 ∧ s.operandValue (s.operandByte 2) = 0#8

/-- Point 6: PUSH or CALL with SP = 0; POP or RET with SP = 255; CALL's return address, HLT's next PC, or the fall-through
of an untaken JEQ or JNE past 255. -/
def State.handlerPastEnd (s : State) : Prop :=
  (s.opcodeByte ∈ [0x45#8, 0x50#8] ∧ s.sp.toNat = 0) ∨
  (s.opcodeByte ∈ [0x46#8, 0x11#8] ∧ s.sp.toNat = 255) ∨
  (s.opcodeByte = 0x50#8 ∧ 255 < s.pc.toNat + 2) ∨
  (s.opcodeByte = 0x01#8 ∧ 255 < s.pc.toNat + 1) ∨
  (s.opcodeByte = 0x55#8 ∧ s.fl ≠ .equal ∧ 255 < s.pc.toNat + 2) ∨
  (s.opcodeByte = 0x56#8 ∧ s.fl = .equal ∧ 255 < s.pc.toNat + 2)

/-- The first fault of the step, in the order of 60_exceptions.md R207, as a relation; `none` where no fault applies. -/
inductive FirstFault (s : State) : Option FaultKind → Prop where
  | guard : guardFires s = true → FirstFault s (some .cycleLimitExceeded)
  | decode : guardFires s = false → s.opcodeByte ∉ tableOpcodes → FirstFault s (some .illegalInstruction)
  | operandFetch : guardFires s = false → s.opcodeByte ∈ tableOpcodes → 255 < s.pc.toNat + tableN s.opcodeByte →
      FirstFault s (some .addressing)
  | operandDecode : guardFires s = false → s.opcodeByte ∈ tableOpcodes → s.pc.toNat + tableN s.opcodeByte ≤ 255 →
      s.badIndex → FirstFault s (some .registerIndex)
  | divisor : guardFires s = false → s.opcodeByte ∈ tableOpcodes → s.pc.toNat + tableN s.opcodeByte ≤ 255 →
      ¬ s.badIndex → s.zeroDivisor → FirstFault s (some .divisionByZero)
  | handler : guardFires s = false → s.opcodeByte ∈ tableOpcodes → s.pc.toNat + tableN s.opcodeByte ≤ 255 →
      ¬ s.badIndex → ¬ s.zeroDivisor → s.handlerPastEnd → FirstFault s (some .addressing)
  | advance : guardFires s = false → s.opcodeByte ∈ tableOpcodes → s.pc.toNat + tableN s.opcodeByte ≤ 255 →
      ¬ s.badIndex → ¬ s.zeroDivisor → ¬ s.handlerPastEnd → 255 < s.pc.toNat + tableAdv s.opcodeByte →
      FirstFault s (some .addressing)
  | noFault : guardFires s = false → s.opcodeByte ∈ tableOpcodes → s.pc.toNat + tableN s.opcodeByte ≤ 255 →
      ¬ s.badIndex → ¬ s.zeroDivisor → ¬ s.handlerPastEnd → s.pc.toNat + tableAdv s.opcodeByte ≤ 255 →
      FirstFault s none

/-- The cases of 60_exceptions.md R201, line by line. -/
def State.addressingCase (s : State) : Prop :=
  (s.opcodeByte ∈ tableOpcodes ∧ 255 < s.pc.toNat + tableN s.opcodeByte) ∨
  (s.opcodeByte ∈ [0x82#8, 0xA0#8, 0xA1#8, 0xA2#8, 0xA3#8, 0xA7#8] ∧ s.pc.toNat = 253) ∨
  (s.opcodeByte ∈ [0x47#8, 0x45#8, 0x46#8, 0x65#8, 0x66#8] ∧ s.pc.toNat = 254) ∨
  (s.opcodeByte = 0x01#8 ∧ s.pc.toNat = 255) ∨
  (s.opcodeByte = 0x55#8 ∧ s.pc.toNat = 254 ∧ s.fl ≠ .equal) ∨
  (s.opcodeByte = 0x56#8 ∧ s.pc.toNat = 254 ∧ s.fl = .equal) ∨
  (s.opcodeByte = 0x50#8 ∧ s.pc.toNat = 254) ∨
  (s.opcodeByte ∈ [0x45#8, 0x50#8] ∧ s.sp.toNat = 0) ∨
  (s.opcodeByte ∈ [0x46#8, 0x11#8] ∧ s.sp.toNat = 255)

/-! ### The next PC (40_execution_loop.md R106) -/

/-- The table of 40_execution_loop.md R106, as an unbounded integer. -/
def nextPc (i : Instr) (s : State) : Int :=
  match i with
  | .ldi _ _ | .add _ _ | .sub _ _ | .mul _ _ | .div _ _ | .cmp _ _ => s.pc.toNat + 3
  | .prn _ | .push _ | .pop _ | .inc _ | .dec _ => s.pc.toNat + 2
  | .hlt => s.pc.toNat + 1
  | .jmp a | .call a => (s.operandValue a).toNat
  | .jeq a => if s.fl = .equal then (s.operandValue a).toNat else s.pc.toNat + 2
  | .jne a => if s.fl ≠ .equal then (s.operandValue a).toNat else s.pc.toNat + 2
  | .ret => (s.mem.read s.sp.toNat).toNat

/-! ### What an instruction leaves alone -/

/-- Every byte of memory reads as before. -/
def SameMemory (s t : State) : Prop := ∀ a, t.mem.read a = s.mem.read a

/-- Every register but the one that operand byte `a` names is as before. -/
def SameRegistersBut (a : Byte) (s t : State) : Prop := ∀ r : Reg, r.byte ≠ a → t.getReg r = s.getReg r

/-- The run state, the record and the count moved only as a commit that does not halt, or as a fault, moves them. -/
def CommitOrFault (s t : State) : Prop :=
  (t.status = s.status ∧ t.fault = s.fault ∧ t.cycles = s.cycles + 1) ∨
    (∃ k, t.status = .halted ∧ t.fault = some ⟨k, s.pc⟩ ∧ t.cycles = s.cycles)

end Sys2Proof.Machine
end

