-- ==== Sys2Proof/Certificates/Slice0/Obligations.lean ====
section
/-! DEFINITION. The statements. Each docstring names the rule of spec/ it formalises; the opcode bytes in them are the
spec's decision D1 (log 4). An equation `exec i s = .next { s with … }` is the instruction's result and its whole frame:
every field not written there is unchanged. -/

open Sys2Proof Sys2Proof.Machine

/-! ### Encoding -/

/-- 30_encoding.md R70, R71: for EVERY instruction and every value of its operand bytes, decoding its encoding gives it back,
with what follows. The opcode bytes are decision D1 (log 4). -/
def Obligations.DecodeInvertsEncode : Prop :=
  ∀ (i : Instr) (rest : List Byte), decode (encode i ++ rest) = .ok (i, rest)

/-- 30_encoding.md R70, R77: a byte string decodes only as the one instruction that encodes to its front, so no two encodings
overlap and no byte is dropped. -/
def Obligations.EncodeInvertsDecode : Prop :=
  ∀ (bs : List Byte) (i : Instr) (rest : List Byte), decode bs = .ok (i, rest) → bs = encode i ++ rest

/-- Words written out from the spec's own programs (95_test_vectors.md P1, P2, P3) and formats (30_encoding.md R71). -/
def Obligations.SpecWordsDecode : Prop :=
  decode [0x82#8, 0x00#8, 0x08#8] = .ok (.ldi 0#8 8#8, []) ∧
  decode [0xA2#8, 0x00#8, 0x01#8] = .ok (.mul 0#8 1#8, []) ∧
  decode [0x47#8, 0x00#8] = .ok (.prn 0#8, []) ∧
  decode [0x45#8, 0x01#8] = .ok (.push 1#8, []) ∧
  decode [0x50#8, 0x01#8] = .ok (.call 1#8, []) ∧
  decode [0x56#8, 0x02#8] = .ok (.jne 2#8, []) ∧
  decode [0x11#8] = .ok (.ret, []) ∧
  decode [0x01#8] = .ok (.hlt, [])

/-- 30_encoding.md R76: exactly the 239 bytes outside the table of R74 are illegal, whatever follows them. The table is
decision D1 (log 4). -/
def Obligations.IllegalBytesAreExactlyTheOthers : Prop :=
  (∀ (b : Byte) (rest : List Byte), decode (b :: rest) = .error (.illegalOpcode b) ↔ b ∉ tableOpcodes) ∧
    ((List.range 256).filter (fun n => decide (BitVec.ofNat 8 n ∉ tableOpcodes))).length = 239

/-- 40_execution_loop.md R103: an opcode whose handler writes PC has ADV = 0, every other has ADV = 1 + N; the owners of PC
are the six the rule lists. -/
def Obligations.AdvanceWidthFollowsOwner : Prop :=
  ∀ o : Opcode,
    o.adv = (if o.pcOwner = .handler then 0 else 1 + o.operandCount) ∧
    (o.pcOwner = .handler ↔ o ∈ [.call, .ret, .jmp, .jeq, .jne, .hlt])

/-- 30_encoding.md R78 (its details are log 8): the text of every well-formed instruction reads back as it. -/
def Obligations.AssemblyTextReadsBack : Prop :=
  ∀ i : Instr, i.wellFormed = true → ∃ text, asmText i = some text ∧ parseStatement text = some i

/-! ### The loop -/

/-- 40_execution_loop.md R104, steps 1 to 3: where the bytes from PC to the top of memory decode to `i`, a step is `exec i`.
The loop adds nothing around `exec`, which holds the sequencing and the commit (log 6). -/
def Obligations.StepRunsDecodedInstruction : Prop :=
  ∀ (s : State) (i : Instr) (rest : List Byte), s.Ready → decode (codeBytes s) = .ok (i, rest) → step s = exec i s

/-- 40_execution_loop.md R104: "The step is a total function": a Running machine always has a next state. -/
def Obligations.RunningMachineAlwaysSteps : Prop :=
  ∀ s : State, s.status = .running → ∃ t, step s = .next t

/-- 40_execution_loop.md R108: a Halted state has no step (the stop's form is log 2), so a run from it stays there unchanged,
and a new reset is open to the host. -/
def Obligations.HaltedStateHasNoStep : Prop :=
  ∀ s : State, s.status = .halted →
    step s = .fault .halted ∧
    (∀ (P : State → Prop) (t : State), StepsWhile P s t → t = s) ∧
    (∀ limit image, hostReset s limit image = boot limit image)

/-- 40_execution_loop.md R101: only a Running machine steps, and a step that ends in a clean halt ran HLT. -/
def Obligations.OnlyHltHaltsCleanly : Prop :=
  ∀ s t : State, step s = .next t →
    s.status = .running ∧ (s.fault = none → t.CleanHalt → s.opcodeByte = 0x01#8 ∧ Committed s t)

/-- 40_execution_loop.md R106: the next PC of a committed instruction is the table's; a next PC above 255 commits nothing and
faults; no next PC is below 0; a register target or a popped byte is always an address. -/
def Obligations.NextPcTable : Prop :=
  (∀ (i : Instr) (s t : State), exec i s = .next t → Committed s t → (t.pc.toNat : Int) = nextPc i s) ∧
  (∀ (i : Instr) (s : State), 255 < nextPc i s → ∃ k, FaultsWith k i s) ∧
  (∀ (i : Instr) (s : State), i.wellFormed = true → 255 < nextPc i s →
    FaultsWith .addressing i s ∨ (∃ a b, i = .div a b ∧ s.operandValue b = 0#8)) ∧
  (∀ (i : Instr) (s : State), 0 ≤ nextPc i s) ∧
  (∀ (s : State) (a : Byte), nextPc (.jmp a) s ≤ 255 ∧ nextPc (.call a) s ≤ 255 ∧ nextPc .ret s ≤ 255 ∧
    (s.fl = .equal → nextPc (.jeq a) s ≤ 255) ∧ (s.fl ≠ .equal → nextPc (.jne a) s ≤ 255))

/-! ### Faults -/

/-- 60_exceptions.md R206: a fault commits nothing; the state is the one before, Halted, with the record of the kind and of
the instruction's address. -/
def Obligations.FaultsArePrecise : Prop :=
  ∀ s t : State, s.fault = none → step s = .next t → t.fault ≠ none →
    ∃ k, t = { s with status := .halted, fault := some ⟨k, s.pc⟩ }

/-- 60_exceptions.md R207: a step reports the FIRST fault in the rule's order, and commits when none applies. -/
def Obligations.FaultPriority : Prop :=
  ∀ (s : State), s.status = .running → s.fault = none →
    ∃ f, FirstFault s f ∧
      match f with
      | some k => step s = .next (s.stoppedBy k)
      | none => ∃ t, step s = .next t ∧ t.fault = none ∧ Committed s t

/-- 60_exceptions.md R201: an AddressingFault arises only in the rule's cases. In each of them the step faults: with
AddressingFault outright where an operand byte lies past 255, whatever byte 1 and the registers hold; else with the kind that
R207 puts first, a bad index, then a zero divisor; else with AddressingFault. -/
def Obligations.AddressingFaultCases : Prop :=
  ∀ (s t : State), s.Ready → s.fault = none → step s = .next t →
    (t.fault = some ⟨.addressing, s.pc⟩ → s.addressingCase) ∧
    (s.opcodeByte ∈ tableOpcodes → 255 < s.pc.toNat + tableN s.opcodeByte → t.fault = some ⟨.addressing, s.pc⟩) ∧
    (s.addressingCase → s.pc.toNat + tableN s.opcodeByte ≤ 255 → s.badIndex → t.fault = some ⟨.registerIndex, s.pc⟩) ∧
    (s.addressingCase → s.pc.toNat + tableN s.opcodeByte ≤ 255 → ¬ s.badIndex → s.zeroDivisor →
      t.fault = some ⟨.divisionByZero, s.pc⟩) ∧
    (s.addressingCase → ¬ s.badIndex → ¬ s.zeroDivisor → t.fault = some ⟨.addressing, s.pc⟩)

/-- 60_exceptions.md R202: a byte outside the table halts with IllegalInstruction and changes nothing else; 0x00 is one. The
table is decision D1 (log 4). -/
def Obligations.IllegalInstructionFault : Prop :=
  (∀ s : State, s.Ready → s.opcodeByte ∉ tableOpcodes → step s = .next (s.stoppedBy .illegalInstruction)) ∧
  (∀ s t : State, s.fault = none → step s = .next t → t.fault = some ⟨.illegalInstruction, s.pc⟩ →
    s.opcodeByte ∉ tableOpcodes) ∧
  0x00#8 ∉ tableOpcodes

/-- 60_exceptions.md R203: DIV by zero faults after both operands decode, at any address, and only DIV does. -/
def Obligations.DivisionByZeroFault : Prop :=
  (∀ (s : State) (ra rb : Reg), s.getReg rb = 0#8 → FaultsWith .divisionByZero (.div ra.byte rb.byte) s) ∧
  (∀ (i : Instr) (s t : State), s.fault = none → exec i s = .next t → t.fault = some ⟨.divisionByZero, s.pc⟩ →
    ∃ ra rb : Reg, i = .div ra.byte rb.byte ∧ s.getReg rb = 0#8)

/-- 60_exceptions.md R204: a register operand byte of 5..255 raises RegisterIndexFault and nothing else does; LDI's immediate
is not checked. -/
def Obligations.RegisterIndexFault : Prop :=
  (∀ (i : Instr) (s : State) (b : Byte), b ∈ i.registerBytes → 5 ≤ b.toNat → FaultsWith .registerIndex i s) ∧
  (∀ (i : Instr) (s t : State), s.fault = none → exec i s = .next t → t.fault = some ⟨.registerIndex, s.pc⟩ →
    ∃ b, b ∈ i.registerBytes ∧ 5 ≤ b.toNat) ∧
  (∀ (s : State) (r : Reg) (imm : Byte), ¬ FaultsWith .registerIndex (.ldi r.byte imm) { s with fault := none })

/-- 60_exceptions.md R205: with a limit L the guard stops a Running machine at cycles ≥ L and fetches nothing; below L, or with
no limit, it does not fire; at most L instructions commit; L = 0 executes nothing; a HLT that is the L-th ends the run
cleanly. L is the field `cycleLimit` (log 1); every limit is covered. -/
def Obligations.CycleLimitGuard : Prop :=
  (∀ (s : State) (limit : Nat), s.status = .running → s.cycleLimit = some limit → limit ≤ s.cycles →
    step s = .next { s with status := .halted, fault := some ⟨.cycleLimitExceeded, s.pc⟩ }) ∧
  (∀ s t : State, s.fault = none → step s = .next t → t.fault = some ⟨.cycleLimitExceeded, s.pc⟩ →
    ∃ limit, s.cycleLimit = some limit ∧ limit ≤ s.cycles) ∧
  (∀ (limit : Nat) (s t : State), s.cycleLimit = some limit → s.cycles ≤ limit → Reaches s t → t.cycles ≤ limit) ∧
  (∀ s : State, s.status = .running → s.cycleLimit = some 0 →
    step s = .next { s with status := .halted, fault := some ⟨.cycleLimitExceeded, s.pc⟩ }) ∧
  (∀ s : State, s.status = .running → s.fault = none → s.cycleLimit = some (s.cycles + 1) → s.opcodeByte = 0x01#8 →
    s.pc.toNat ≤ 254 → ∃ t, step s = .next t ∧ t.CleanHalt ∧ some t.cycles = s.cycleLimit)

/-! ### ALU -/

/-- The common form of R131, R132 and R133: the encoding, the result `f` of the two values, and each exception. -/
def TwoRegisterRule (op : Byte) (mk : Byte → Byte → Instr) (f : Nat → Nat → Nat) : Prop :=
  (∀ a b, encode (mk a b) = [op, a, b]) ∧
  (∀ (s : State) (ra rb : Reg), s.pc.toNat ≤ 252 →
    exec (mk ra.byte rb.byte) s = .next { s with
      regs := s.regs.set ra (BitVec.ofNat 8 (f (s.getReg ra).toNat (s.getReg rb).toNat))
      pc := s.pc + 3#8
      cycles := s.cycles + 1 }) ∧
  (∀ (s : State) (ra rb : Reg), 253 ≤ s.pc.toNat → FaultsWith .addressing (mk ra.byte rb.byte) s) ∧
  (∀ (s : State) (a b : Byte), 5 ≤ a.toNat ∨ 5 ≤ b.toNat → FaultsWith .registerIndex (mk a b) s) ∧
  OperandFetchFaults op 2

/-- 41_alu.md R131, R132, R133: ADD, SUB and MUL, each whole. -/
def Obligations.AddSubMulRules : Prop :=
  TwoRegisterRule 0xA0#8 .add (fun p q => (p + q) % 256) ∧
  TwoRegisterRule 0xA1#8 .sub (fun p q => (256 + p - q) % 256) ∧
  TwoRegisterRule 0xA2#8 .mul (fun p q => (p * q) % 256)

/-- 41_alu.md R134: DIV, whole. A zero divisor is reported before the next PC is checked (R207). -/
def Obligations.DivRule : Prop :=
  (∀ a b, encode (.div a b) = [0xA3#8, a, b]) ∧
  (∀ (s : State) (ra rb : Reg), s.pc.toNat ≤ 252 → s.getReg rb ≠ 0#8 →
    exec (.div ra.byte rb.byte) s = .next { s with
      regs := s.regs.set ra (BitVec.ofNat 8 ((s.getReg ra).toNat / (s.getReg rb).toNat))
      pc := s.pc + 3#8
      cycles := s.cycles + 1 }) ∧
  (∀ (s : State) (ra rb : Reg), s.getReg rb = 0#8 → FaultsWith .divisionByZero (.div ra.byte rb.byte) s) ∧
  (∀ (s : State) (ra rb : Reg), 253 ≤ s.pc.toNat → s.getReg rb ≠ 0#8 → FaultsWith .addressing (.div ra.byte rb.byte) s) ∧
  (∀ (s : State) (a b : Byte), 5 ≤ a.toNat ∨ 5 ≤ b.toNat → FaultsWith .registerIndex (.div a b) s) ∧
  OperandFetchFaults 0xA3#8 2

/-- The common form of R135 and R136. -/
def OneRegisterRule (op : Byte) (mk : Byte → Instr) (f : Nat → Nat) : Prop :=
  (∀ a, encode (mk a) = [op, a]) ∧
  (∀ (s : State) (ra : Reg), s.pc.toNat ≤ 253 →
    exec (mk ra.byte) s = .next { s with
      regs := s.regs.set ra (BitVec.ofNat 8 (f (s.getReg ra).toNat))
      pc := s.pc + 2#8
      cycles := s.cycles + 1 }) ∧
  (∀ (s : State) (ra : Reg), 254 ≤ s.pc.toNat → FaultsWith .addressing (mk ra.byte) s) ∧
  (∀ (s : State) (a : Byte), 5 ≤ a.toNat → FaultsWith .registerIndex (mk a) s) ∧
  OperandFetchFaults op 1

/-- 41_alu.md R135, R136: INC and DEC, each whole; 255 wraps to 0 and 0 to 255. -/
def Obligations.IncDecRules : Prop :=
  OneRegisterRule 0x65#8 .inc (fun p => (p + 1) % 256) ∧
  OneRegisterRule 0x66#8 .dec (fun p => (p + 255) % 256)

/-- 41_alu.md R137: CMP, whole: exactly one of the three flags, unsigned, and no register. -/
def Obligations.CmpRule : Prop :=
  (∀ a b, encode (.cmp a b) = [0xA7#8, a, b]) ∧
  (∀ (s : State) (ra rb : Reg), s.pc.toNat ≤ 252 →
    ∃ f : Flag, exec (.cmp ra.byte rb.byte) s = .next { s with fl := f, pc := s.pc + 3#8, cycles := s.cycles + 1 } ∧
      (f = .equal ↔ s.getReg ra = s.getReg rb) ∧
      (f = .lessThan ↔ (s.getReg ra).toNat < (s.getReg rb).toNat) ∧
      (f = .greaterThan ↔ (s.getReg rb).toNat < (s.getReg ra).toNat)) ∧
  (∀ (s : State) (ra rb : Reg), 253 ≤ s.pc.toNat → FaultsWith .addressing (.cmp ra.byte rb.byte) s) ∧
  (∀ (s : State) (a b : Byte), 5 ≤ a.toNat ∨ 5 ≤ b.toNat → FaultsWith .registerIndex (.cmp a b) s) ∧
  OperandFetchFaults 0xA7#8 2

/-! ### Data movement -/

/-- 42_data_movement.md R150: LDI, whole, with every immediate legal. -/
def Obligations.LdiRule : Prop :=
  (∀ a imm, encode (.ldi a imm) = [0x82#8, a, imm]) ∧
  (∀ (s : State) (ra : Reg) (imm : Byte), s.pc.toNat ≤ 252 →
    exec (.ldi ra.byte imm) s = .next { s with regs := s.regs.set ra imm, pc := s.pc + 3#8, cycles := s.cycles + 1 }) ∧
  (∀ (s : State) (ra : Reg) (imm : Byte), 253 ≤ s.pc.toNat → FaultsWith .addressing (.ldi ra.byte imm) s) ∧
  (∀ (s : State) (a imm : Byte), 5 ≤ a.toNat → FaultsWith .registerIndex (.ldi a imm) s) ∧
  OperandFetchFaults 0x82#8 2

/-- 42_data_movement.md R151: PRN, whole: one value appended, none when it faults. -/
def Obligations.PrnRule : Prop :=
  (∀ a, encode (.prn a) = [0x47#8, a]) ∧
  (∀ (s : State) (ra : Reg), s.pc.toNat ≤ 253 →
    exec (.prn ra.byte) s = .next { s with out := s.out ++ [s.getReg ra], pc := s.pc + 2#8, cycles := s.cycles + 1 }) ∧
  (∀ (s : State) (ra : Reg), 254 ≤ s.pc.toNat → FaultsWith .addressing (.prn ra.byte) s) ∧
  (∀ (s : State) (a : Byte), 5 ≤ a.toNat → FaultsWith .registerIndex (.prn a) s) ∧
  OperandFetchFaults 0x47#8 1

/-! ### Stack -/

/-- 43_stack.md R161: PUSH, whole. The cell at the new SP reads as the register, every other cell as before. -/
def Obligations.PushRule : Prop :=
  (∀ a, encode (.push a) = [0x45#8, a]) ∧
  (∀ (s : State) (ra : Reg), s.pc.toNat ≤ 253 → s.sp.toNat ≠ 0 → s.mem.wf = true →
    ∃ m : Memory, exec (.push ra.byte) s = .next { s with
        mem := m, sp := s.sp - 1#8, pc := s.pc + 2#8, cycles := s.cycles + 1 } ∧
      m.wf = true ∧
      ∀ a, m.read a = if a = (s.sp - 1#8).toNat then s.getReg ra else s.mem.read a) ∧
  (∀ (s : State) (ra : Reg), s.sp.toNat = 0 → FaultsWith .addressing (.push ra.byte) s) ∧
  (∀ (s : State) (ra : Reg), 254 ≤ s.pc.toNat → FaultsWith .addressing (.push ra.byte) s) ∧
  (∀ (s : State) (a : Byte), 5 ≤ a.toNat → FaultsWith .registerIndex (.push a) s) ∧
  OperandFetchFaults 0x45#8 1

/-- 43_stack.md R162: POP, whole. -/
def Obligations.PopRule : Prop :=
  (∀ a, encode (.pop a) = [0x46#8, a]) ∧
  (∀ (s : State) (ra : Reg), s.pc.toNat ≤ 253 → s.sp.toNat ≠ 255 →
    exec (.pop ra.byte) s = .next { s with
      regs := s.regs.set ra (s.mem.read s.sp.toNat), sp := s.sp + 1#8, pc := s.pc + 2#8, cycles := s.cycles + 1 }) ∧
  (∀ (s : State) (ra : Reg), s.sp.toNat = 255 → FaultsWith .addressing (.pop ra.byte) s) ∧
  (∀ (s : State) (ra : Reg), 254 ≤ s.pc.toNat → FaultsWith .addressing (.pop ra.byte) s) ∧
  (∀ (s : State) (a : Byte), 5 ≤ a.toNat → FaultsWith .registerIndex (.pop a) s) ∧
  OperandFetchFaults 0x46#8 1

/-- 43_stack.md R162 (the source's property): PUSH then POP, of the same register or another, copies the value and puts SP back,
and leaves every other register alone. -/
def Obligations.PushThenPopCopies : Prop :=
  ∀ (s : State) (ra rb : Reg), s.mem.wf = true → s.sp.toNat ≠ 0 → s.pc.toNat ≤ 251 →
    ∃ t u, exec (.push ra.byte) s = .next t ∧ exec (.pop rb.byte) t = .next u ∧
      u.getReg rb = s.getReg ra ∧ u.sp = s.sp ∧ (∀ r, r ≠ rb → u.getReg r = s.getReg r) ∧ u.pc.toNat = s.pc.toNat + 4

/-! ### Control transfer -/

/-- 44_control_flow.md R171: CALL, whole. The target is read before the push; the return address is PC + 2. -/
def Obligations.CallRule : Prop :=
  (∀ a, encode (.call a) = [0x50#8, a]) ∧
  (∀ (s : State) (ra : Reg), s.pc.toNat ≤ 253 → s.sp.toNat ≠ 0 → s.mem.wf = true →
    ∃ m : Memory, exec (.call ra.byte) s = .next { s with
        mem := m, sp := s.sp - 1#8, pc := s.getReg ra, cycles := s.cycles + 1 } ∧
      m.wf = true ∧
      ∀ a, m.read a = if a = (s.sp - 1#8).toNat then s.pc + 2#8 else s.mem.read a) ∧
  (∀ (s : State) (ra : Reg), s.sp.toNat = 0 → FaultsWith .addressing (.call ra.byte) s) ∧
  (∀ (s : State) (ra : Reg), 254 ≤ s.pc.toNat → FaultsWith .addressing (.call ra.byte) s) ∧
  (∀ (s : State) (a : Byte), 5 ≤ a.toNat → FaultsWith .registerIndex (.call a) s) ∧
  OperandFetchFaults 0x50#8 1

/-- 44_control_flow.md R172: RET, whole; it does not check where the byte it pops came from. -/
def Obligations.RetRule : Prop :=
  encode .ret = [0x11#8] ∧
  (∀ s : State, s.sp.toNat ≠ 255 →
    exec .ret s = .next { s with pc := s.mem.read s.sp.toNat, sp := s.sp + 1#8, cycles := s.cycles + 1 }) ∧
  (∀ s : State, s.sp.toNat = 255 → FaultsWith .addressing .ret s)

/-- 44_control_flow.md R172, R176 (the source's property): after a CALL, a RET that finds SP and the return cell as the CALL
left them goes to the instruction after the CALL and puts SP back. -/
def Obligations.CallThenRetReturns : Prop :=
  ∀ (s t u : State) (ra : Reg), s.mem.wf = true → exec (.call ra.byte) s = .next t → Committed s t →
    u.sp = t.sp → u.mem.read t.sp.toNat = t.mem.read t.sp.toNat →
    ∃ v, exec .ret u = .next v ∧ Committed u v ∧ v.pc.toNat = s.pc.toNat + 2 ∧ v.sp = s.sp

/-- 44_control_flow.md R173: JMP, whole; legal at 254, since it does not fall through. -/
def Obligations.JmpRule : Prop :=
  (∀ a, encode (.jmp a) = [0x54#8, a]) ∧
  (∀ (s : State) (ra : Reg), exec (.jmp ra.byte) s = .next { s with pc := s.getReg ra, cycles := s.cycles + 1 }) ∧
  (∀ (s : State) (a : Byte), 5 ≤ a.toNat → FaultsWith .registerIndex (.jmp a) s) ∧
  OperandFetchFaults 0x54#8 1

/-- The common form of R174 and R175, for a branch taken in exactly the states where `taken` holds. -/
def BranchRule (op : Byte) (mk : Byte → Instr) (taken : State → Prop) : Prop :=
  (∀ a, encode (mk a) = [op, a]) ∧
  (∀ (s : State) (ra : Reg), taken s →
    exec (mk ra.byte) s = .next { s with pc := s.getReg ra, cycles := s.cycles + 1 }) ∧
  (∀ (s : State) (ra : Reg), ¬ taken s → s.pc.toNat ≤ 253 →
    exec (mk ra.byte) s = .next { s with pc := s.pc + 2#8, cycles := s.cycles + 1 }) ∧
  (∀ (s : State) (ra : Reg), ¬ taken s → 254 ≤ s.pc.toNat → FaultsWith .addressing (mk ra.byte) s) ∧
  (∀ (s : State) (a : Byte), 5 ≤ a.toNat → FaultsWith .registerIndex (mk a) s) ∧
  OperandFetchFaults op 1

/-- 44_control_flow.md R174, R175: JEQ is taken exactly on Equal; JNE on every other flag, Unset among them. -/
def Obligations.BranchRules : Prop :=
  BranchRule 0x55#8 .jeq (fun s => s.fl = .equal) ∧
  BranchRule 0x56#8 .jne (fun s => s.fl = .unset ∨ s.fl = .lessThan ∨ s.fl = .greaterThan)

/-- 44_control_flow.md R177: after a CMP, and any run without another CMP, JEQ is taken exactly when the two values were
equal AT THE CMP, and JNE exactly when they differed. -/
def Obligations.CompareThenBranch : Prop :=
  ∀ (s t u v : State) (ra rb rc : Reg), exec (.cmp ra.byte rb.byte) s = .next t → Committed s t →
    StepsWhile (fun w => w.opcodeByte ≠ 0xA7#8) t u → Committed u v →
    (exec (.jeq rc.byte) u = .next v → v.pc = if s.getReg ra = s.getReg rb then u.getReg rc else u.pc + 2#8) ∧
    (exec (.jne rc.byte) u = .next v → v.pc = if s.getReg ra = s.getReg rb then u.pc + 2#8 else u.getReg rc)

/-- 40_execution_loop.md R107: HLT, whole: PC past the HLT, Halted, counted, nothing else; at 255 it faults instead; no
other instruction halts a Running machine without a fault. -/
def Obligations.HltRule : Prop :=
  encode .hlt = [0x01#8] ∧
  (∀ s : State, s.pc.toNat ≤ 254 →
    exec .hlt s = .next { s with pc := s.pc + 1#8, status := .halted, cycles := s.cycles + 1 }) ∧
  (∀ s : State, s.pc.toNat = 255 → FaultsWith .addressing .hlt s) ∧
  (∀ (i : Instr) (s t : State), s.status = .running → exec i s = .next t → t.status = .halted → t.fault = s.fault →
    t.cycles = s.cycles + 1 → i = .hlt)

/-! ### Frames -/

/-- Frame of LDI, ADD, SUB, MUL, DIV, INC and DEC, on every operand byte: nothing but the destination register `a`, PC and the
run state changes (10_state.md R22, R27; 41_alu.md R130). -/
def Obligations.RegisterFormsFrame : Prop :=
  ∀ (i : Instr) (a b : Byte) (s t : State),
    i ∈ [.ldi a b, .add a b, .sub a b, .mul a b, .div a b, .inc a, .dec a] → exec i s = .next t →
    SameRegistersBut a s t ∧ t.fl = s.fl ∧ t.sp = s.sp ∧ SameMemory s t ∧ t.out = s.out ∧
      t.cycleLimit = s.cycleLimit ∧ CommitOrFault s t

/-- Frame of CMP and PRN: no register, no SP, no byte of memory; CMP leaves the output alone and PRN leaves FL alone. -/
def Obligations.CmpPrnFrame : Prop :=
  ∀ (i : Instr) (a b : Byte) (s t : State), i ∈ [.cmp a b, .prn a] → exec i s = .next t →
    t.regs = s.regs ∧ t.sp = s.sp ∧ SameMemory s t ∧ t.cycleLimit = s.cycleLimit ∧ CommitOrFault s t ∧
      (i = .cmp a b → t.out = s.out) ∧ (i = .prn a → t.fl = s.fl)

/-- Frame of PUSH and CALL: no general register, no flag, no output; memory reads as before everywhere but at SP - 1, where
they store, and everywhere where that is no address; SP is theirs to change. -/
def Obligations.StoringFormsFrame : Prop :=
  ∀ (i : Instr) (a : Byte) (s t : State), i ∈ [.push a, .call a] → exec i s = .next t →
    t.regs = s.regs ∧ t.fl = s.fl ∧ t.out = s.out ∧ t.cycleLimit = s.cycleLimit ∧ CommitOrFault s t ∧
      (∀ at_ : Byte, asAddress (val s.sp - 1) = .ok at_ → ∀ c, c ≠ at_.toNat → t.mem.read c = s.mem.read c) ∧
      (∀ k, asAddress (val s.sp - 1) = .error k → SameMemory s t)

/-- Frame of POP and RET: no byte of memory (the popped cell is not cleared), no flag, no output; POP changes only the register
`a` names, RET none; SP is theirs to change. -/
def Obligations.PoppingFormsFrame : Prop :=
  ∀ (i : Instr) (a : Byte) (s t : State), i ∈ [.pop a, .ret] → exec i s = .next t →
    SameRegistersBut a s t ∧ (i = .ret → t.regs = s.regs) ∧ t.fl = s.fl ∧ SameMemory s t ∧ t.out = s.out ∧
      t.cycleLimit = s.cycleLimit ∧ CommitOrFault s t

/-- Frame of JMP, JEQ, JNE and HLT: nothing but PC and the run state; HLT alone halts on a commit. -/
def Obligations.JumpHaltFrame : Prop :=
  ∀ (i : Instr) (a : Byte) (s t : State), i ∈ [.jmp a, .jeq a, .jne a, .hlt] → exec i s = .next t →
    t.regs = s.regs ∧ t.fl = s.fl ∧ t.sp = s.sp ∧ SameMemory s t ∧ t.out = s.out ∧ t.cycleLimit = s.cycleLimit ∧
      (i ≠ .hlt → CommitOrFault s t) ∧
      (i = .hlt → CommitOrFault s t ∨ (t.status = .halted ∧ t.fault = s.fault ∧ t.cycles = s.cycles + 1))

/-! ### Whole-machine rules -/

/-- 10_state.md R36, kept by every step from every state that meets it, reached or not. -/
def Obligations.StepKeepsInvariant : Prop :=
  ∀ s t : State, s.Inv → step s = .next t → t.Inv

/-- 10_state.md R36 at reset. -/
def Obligations.ResetMeetsInvariant : Prop := State.reset.Inv

/-- 10_state.md R35; 70_reset_and_hazards.md R230, R232: an image of at most 256 bytes is in memory from address 0 up, every
other cell is 0, and every other piece of state has its reset value; a longer image is refused. That R0..R4 reset to 0 is
the spec's decision D11 (log 5); that the refusal is an outcome of `boot` is log 7. -/
def Obligations.BootLoadsImage : Prop :=
  (∀ (limit : Option Nat) (image : List Byte), image.length ≤ 256 →
    ∃ s, boot limit image = .next s ∧ s.Inv ∧
      (∀ a, s.mem.read a = (image[a]?).getD 0x00#8) ∧ (∀ r : Reg, s.getReg r = 0#8) ∧
      s.pc = 0x00#8 ∧ s.sp = 0xF4#8 ∧ s.fl = .unset ∧ s.status = .running ∧ s.fault = none ∧ s.cycles = 0 ∧
      s.out = [] ∧ s.cycleLimit = limit) ∧
  (∀ (limit : Option Nat) (image : List Byte), 256 < image.length → boot limit image = .refused .imageTooLong)

/-- 70_reset_and_hazards.md R230: the host cannot reset a Running machine, and every state a run from a reset reaches is either
Running or open to a reset. The refusal's form is log 7. -/
def Obligations.ResetOnlyWhileNotRunning : Prop :=
  (∀ (s : State) (limit : Option Nat) (image : List Byte), s.status = .running →
    hostReset s limit image = .refused .resetWhileRunning) ∧
  (∀ (s : State) (limit : Option Nat) (image : List Byte), s.status = .halted → image.length ≤ 256 →
    ∃ t, hostReset s limit image = .next t ∧ t.status = .running ∧ t.pc = 0x00#8 ∧ t.fault = none)

/-- 10_state.md R27: FL is Unset at reset; only CMP writes it, never with Unset; only JEQ and JNE read it: any other
instruction's step is the same whatever FL holds. -/
def Obligations.FlagLifecycle : Prop :=
  State.reset.fl = .unset ∧
  (∀ s t : State, step s = .next t → s.opcodeByte ≠ 0xA7#8 → t.fl = s.fl) ∧
  (∀ s t : State, step s = .next t → s.fl ≠ .unset → t.fl ≠ .unset) ∧
  (∀ s t : State, step s = .next t → s.opcodeByte = 0xA7#8 → Committed s t → t.fl ≠ .unset) ∧
  (∀ (s t : State) (f : Flag), s.opcodeByte ≠ 0x55#8 → s.opcodeByte ≠ 0x56#8 → step s = .next t →
    ∃ t', step { s with fl := f } = .next t' ∧ { t' with fl := t.fl } = t ∧
      (t.fl ≠ s.fl → t'.fl = t.fl))

/-- 10_state.md R31: cycles starts at 0, rises by 1 at a commit and not at a fault, and nothing but the guard
reads it: where the guard answers alike, the step does the same whatever cycles holds. -/
def Obligations.CycleCount : Prop :=
  State.reset.cycles = 0 ∧
  (∀ s t : State, s.fault = none → step s = .next t → t.cycles = if t.fault = none then s.cycles + 1 else s.cycles) ∧
  (∀ (s t : State) (n : Nat), guardFires { s with cycles := n } = guardFires s → step s = .next t →
    ∃ t', step { s with cycles := n } = .next t' ∧ { t' with cycles := t.cycles } = t)

/-- 10_state.md R32: out is empty at reset; each committed PRN appends its one value; nothing else changes it; no instruction
reads it. -/
def Obligations.OutputSequence : Prop :=
  State.reset.out = [] ∧
  (∀ (s t : State) (a : Byte), exec (.prn a) s = .next t → Committed s t →
    ∃ r : Reg, a = r.byte ∧ t.out = s.out ++ [s.getReg r]) ∧
  (∀ s t : State, step s = .next t → t.out ≠ s.out → s.opcodeByte = 0x47#8 ∧ Committed s t) ∧
  (∀ (s t : State) (o : List Byte), step s = .next t →
    ∃ t', step { s with out := o } = .next t' ∧ { t' with out := t.out } = t)

/-- 43_stack.md R160: PUSH, POP, CALL and RET alone change SP, by one, downward on a push and upward on a pop. -/
def Obligations.StackPointerMoves : Prop :=
  ∀ s t : State, step s = .next t →
    (s.opcodeByte ∉ [0x45#8, 0x46#8, 0x50#8, 0x11#8] → t.sp = s.sp) ∧
    (s.opcodeByte ∈ [0x45#8, 0x50#8] → Committed s t → t.sp.toNat + 1 = s.sp.toNat) ∧
    (s.opcodeByte ∈ [0x46#8, 0x11#8] → Committed s t → t.sp.toNat = s.sp.toNat + 1)

/-- 20_memory.md R52, R61: PUSH and CALL alone write memory, and they write no cell but the one at SP - 1; where that is no
address, they write none. -/
def Obligations.OnlyPushAndCallWriteMemory : Prop :=
  ∀ s t : State, step s = .next t →
    (s.opcodeByte ≠ 0x45#8 → s.opcodeByte ≠ 0x50#8 → t.mem = s.mem) ∧
    (s.opcodeByte ∈ [0x45#8, 0x50#8] →
      (∀ at_ : Byte, asAddress (val s.sp - 1) = .ok at_ → ∀ c, c ≠ at_.toNat → t.mem.read c = s.mem.read c) ∧
      (∀ k, asAddress (val s.sp - 1) = .error k → SameMemory s t))

/-- 20_memory.md R61; 70_reset_and_hazards.md R235: a byte that PUSH or CALL stored where the next instruction lies is what the
next fetch reads there. -/
def Obligations.NextFetchSeesTheStore : Prop :=
  ∀ (s t : State) (ra : Reg) (k : Nat), s.mem.wf = true → Committed s t → t.pc.toNat + k = t.sp.toNat →
    (exec (.push ra.byte) s = .next t → (codeBytes t)[k]? = some (s.getReg ra)) ∧
    (exec (.call ra.byte) s = .next t → (codeBytes t)[k]? = some (s.pc + 2#8))

/-- The canonical form of memory: two memories in it that read alike at every address are the same list. -/
def Obligations.CanonicalMemoryIsUnique : Prop :=
  ∀ m n : Memory, m.wf = true → n.wf = true → (∀ a, a < 256 → m.read a = n.read a) → m = n

/-- 40_execution_loop.md R110: with a limit L a run stops, from any state, within L + 1 steps and at most L committed
instructions. -/
def Obligations.CycleLimitBoundsEveryRun : Prop :=
  ∀ (s : State) (limit : Nat), s.cycleLimit = some limit →
    ∃ (k : Nat) (t : State), k ≤ limit - s.cycles + 1 ∧ Sys2Proof.core.run k s = .next t ∧ t.status = .halted ∧
      t.cycles ≤ max limit s.cycles

/-- 40_execution_loop.md R110's example: with no limit, JMP Rn at the address Rn holds runs for ever. -/
def Obligations.SelfJumpRunsForever : Prop :=
  ∀ (s : State) (r : Reg), s.status = .running → s.cycleLimit = none → s.opcodeByte = 0x54#8 →
    s.pc.toNat ≤ 254 → s.operandByte 1 = r.byte → s.getReg r = s.pc →
    ∀ k : Nat, ∃ t : State, Sys2Proof.core.run k s = .next t ∧ t.status = .running ∧ t.pc = s.pc ∧ t.cycles = s.cycles + k

/-- 40_execution_loop.md R109: a run from a reset that ends did so in one of three ways: HLT committed; the guard stopped it with
nothing fetched; or the instruction at the recorded PC faulted and committed nothing. -/
def Obligations.RunOutcomes : Prop :=
  ∀ t : State, t.Reachable → t.status = .halted →
    ∃ s : State, s.Reachable ∧ s.status = .running ∧ s.fault = none ∧ step s = .next t ∧
      ((t.fault = none ∧ s.opcodeByte = 0x01#8 ∧ Committed s t) ∨
       (guardFires s = true ∧ t = s.stoppedBy .cycleLimitExceeded) ∨
       (guardFires s = false ∧ ∃ k, k ≠ .cycleLimitExceeded ∧ t = s.stoppedBy k))

/-- 10_state.md R30: a fault record is written once: a reachable state that holds one is Halted and has no step. -/
def Obligations.FaultRecordIsFinal : Prop :=
  ∀ t : State, t.Reachable → t.fault ≠ none → t.status = .halted ∧ step t = .fault .halted ∧
    (finalReport t).map (fun r => r.fault) = some t.fault

/-- 10_state.md R33 (fault codes: decision D16): what the status port shows of a Halted machine, and that it shows nothing of a
Running one. -/
def Obligations.StatusPortShows : Prop :=
  (∀ s : State, s.status = .running → readStatus s = none) ∧
  (∀ s : State, s.CleanHalt → readStatus s = some ⟨1#1, 0#3, 0#8, s.cycles⟩) ∧
  (∀ (s : State) (k : FaultKind), readStatus (s.stoppedBy k) = some ⟨1#1,
    (match k with
      | .addressing => 1#3
      | .illegalInstruction => 2#3
      | .divisionByZero => 3#3
      | .cycleLimitExceeded => 4#3
      | .registerIndex => 5#3), s.pc, s.cycles⟩) ∧
  statusFields State.reset = ⟨0#1, 0#3, 0#8, 0⟩
end

