-- ==== Sys2Proof/Laws/Memory.lean ====
section
/-! SUPPORT. Memory: what a read gives after a write, and that every write keeps the canonical form. -/

namespace Sys2Proof.Machine

theorem wfFrom_cons_iff (lo k : Nat) (v : Byte) (m : Memory) :
    Memory.wfFrom lo ((k, v) :: m) = true ↔
      lo ≤ k ∧ k < 256 ∧ v ≠ Config.blankCell ∧ Memory.wfFrom (k + 1) m = true := by
  simp only [Memory.wfFrom, Bool.and_eq_true, decide_eq_true_eq, bne_iff_ne, and_assoc]
  exact Iff.rfl

theorem wfFrom_mono {lo lo' : Nat} {m : Memory} (hle : lo' ≤ lo) (h : Memory.wfFrom lo m = true) :
    Memory.wfFrom lo' m = true := by
  cases m with
  | nil => rfl
  | cons c rest =>
    rw [wfFrom_cons_iff] at h ⊢
    exact ⟨hle.trans h.1, h.2⟩

/-- An address below every listed one is unlisted. -/
theorem read_below {lo : Nat} {m : Memory} (h : Memory.wfFrom lo m = true) {a : Nat} (ha : a < lo) :
    m.read a = Config.blankCell := by
  induction m generalizing lo with
  | nil => rfl
  | cons c rest ih =>
    rw [wfFrom_cons_iff] at h
    obtain ⟨hk, -, -, hr⟩ := h
    have hne : c.1 ≠ a := by omega
    simp only [Memory.read, if_neg hne]
    exact ih hr (by omega)

theorem read_consCell_other (m : Memory) (a b : Nat) (v : Byte) (h : b ≠ a) :
    (Memory.consCell a v m).read b = m.read b := by
  unfold Memory.consCell
  split
  · rfl
  · simp [Memory.read, h.symm]

theorem read_consCell_same {m : Memory} {a : Nat} (v : Byte) (h : m.read a = Config.blankCell) :
    (Memory.consCell a v m).read a = v := by
  unfold Memory.consCell
  split
  · next hv => rw [h, hv]
  · simp [Memory.read]

theorem consCell_wfFrom {m : Memory} {lo a : Nat} (v : Byte) (hlo : lo ≤ a) (ha : a < 256)
    (h : Memory.wfFrom (a + 1) m = true) : Memory.wfFrom lo (Memory.consCell a v m) = true := by
  unfold Memory.consCell
  split
  · exact wfFrom_mono (by omega) h
  · next hv => exact (wfFrom_cons_iff lo a v m).2 ⟨hlo, ha, hv, h⟩

/-- A write leaves every other cell alone. -/
theorem read_write_other (m : Memory) (a b : Nat) (v : Byte) (h : b ≠ a) : (m.write a v).read b = m.read b := by
  induction m with
  | nil => exact read_consCell_other [] a b v h
  | cons c rest ih =>
    simp only [Memory.write]
    split
    · exact read_consCell_other _ a b v h
    · split
      · next hac => rw [read_consCell_other rest a b v h]; simp [Memory.read, ← hac, h.symm]
      · simp only [Memory.read, ih]

theorem read_write_same_from {lo : Nat} {m : Memory} (h : Memory.wfFrom lo m = true) (a : Nat) (v : Byte) :
    (m.write a v).read a = v := by
  induction m generalizing lo with
  | nil => exact read_consCell_same v rfl
  | cons c rest ih =>
    have hc := (wfFrom_cons_iff lo c.1 c.2 rest).1 h
    simp only [Memory.write]
    split
    · next hlt => exact read_consCell_same v (read_below ((wfFrom_cons_iff c.1 c.1 c.2 rest).2 ⟨le_rfl, hc.2⟩) hlt)
    · split
      · next heq => exact read_consCell_same v (read_below hc.2.2.2 (by omega))
      · next hne => simp only [Memory.read, if_neg (Ne.symm hne), ih hc.2.2.2]

/-- A read after a write to the same cell gives the byte written (20_memory.md R58). -/
theorem read_write_same {m : Memory} (h : m.wf = true) (a : Nat) (v : Byte) : (m.write a v).read a = v :=
  read_write_same_from h a v

theorem read_write {m : Memory} (h : m.wf = true) (a b : Nat) (v : Byte) :
    (m.write a v).read b = if b = a then v else m.read b := by
  split
  · next hb => rw [hb, read_write_same h]
  · next hb => exact read_write_other m a b v hb

theorem write_wfFrom {lo : Nat} {m : Memory} (h : Memory.wfFrom lo m = true) {a : Nat} (hlo : lo ≤ a) (ha : a < 256)
    (v : Byte) : Memory.wfFrom lo (m.write a v) = true := by
  induction m generalizing lo with
  | nil => exact consCell_wfFrom v hlo ha rfl
  | cons c rest ih =>
    have hc := (wfFrom_cons_iff lo c.1 c.2 rest).1 h
    simp only [Memory.write]
    split
    · next hlt => exact consCell_wfFrom v hlo ha ((wfFrom_cons_iff (a + 1) c.1 c.2 rest).2 ⟨hlt, hc.2⟩)
    · split
      · next heq => exact consCell_wfFrom v hlo ha (heq ▸ hc.2.2.2)
      · exact (wfFrom_cons_iff lo c.1 c.2 _).2 ⟨hc.1, hc.2.1, hc.2.2.1, ih hc.2.2.2 (by omega)⟩

/-- Every write to an address keeps the canonical form. -/
theorem write_wf {m : Memory} (h : m.wf = true) {a : Nat} (ha : a < 256) (v : Byte) : (m.write a v).wf = true :=
  write_wfFrom h (Nat.zero_le a) ha v

theorem writeBytes_wf {m : Memory} (h : m.wf = true) {a : Nat} (bs : List Byte) (hfit : a + bs.length ≤ 256) :
    (m.writeBytes a bs).wf = true := by
  induction bs generalizing m a with
  | nil => exact h
  | cons b rest ih =>
    simp only [List.length_cons] at hfit
    exact ih (write_wf h (by omega) b) (by omega)

theorem read_writeBytes_below (m : Memory) (a b : Nat) (bs : List Byte) (hb : b < a) :
    (m.writeBytes a bs).read b = m.read b := by
  induction bs generalizing m a with
  | nil => rfl
  | cons v rest ih =>
    simp only [Memory.writeBytes]
    rw [ih _ _ (by omega), read_write_other _ _ _ _ (by omega)]

theorem read_writeBytes_in {m : Memory} (h : m.wf = true) (a k : Nat) (bs : List Byte) (hfit : a + bs.length ≤ 256)
    (hk : k < bs.length) : (m.writeBytes a bs).read (a + k) = bs[k] := by
  induction bs generalizing m a k with
  | nil => simp at hk
  | cons v rest ih =>
    simp only [List.length_cons] at hfit hk
    simp only [Memory.writeBytes]
    cases k with
    | zero => simp [read_writeBytes_below _ _ _ rest (Nat.lt_succ_self a), read_write_same h]
    | succ j =>
      have := ih (write_wf h (by omega : a < 256) v) (a + 1) j (by omega) (by omega)
      simpa [Nat.add_assoc, Nat.add_comm 1 j] using this

theorem read_writeBytes_above (m : Memory) (a b : Nat) (bs : List Byte) (hb : a + bs.length ≤ b) :
    (m.writeBytes a bs).read b = m.read b := by
  induction bs generalizing m a with
  | nil => rfl
  | cons v rest ih =>
    simp only [List.length_cons] at hb
    simp only [Memory.writeBytes]
    rw [ih _ _ (by omega), read_write_other _ _ _ _ (by omega)]

@[simp] theorem reset_mem_wf : State.reset.mem.wf = true := rfl

end Sys2Proof.Machine
end

