-- ==== Sys2Proof/Laws/State.lean ====
section
/-! SUPPORT. One lemma per field and named update of the state, so that no proof unfolds a record update. -/

namespace Sys2Proof.Machine

variable (s : State)

/-! ### setReg -/

@[simp] theorem setReg_mem (r : Reg) (v : Byte) : (s.setReg r v).mem = s.mem := rfl
@[simp] theorem setReg_regs (r : Reg) (v : Byte) : (s.setReg r v).regs = s.regs.set r v := rfl
@[simp] theorem setReg_pc (r : Reg) (v : Byte) : (s.setReg r v).pc = s.pc := rfl
@[simp] theorem setReg_sp (r : Reg) (v : Byte) : (s.setReg r v).sp = s.sp := rfl
@[simp] theorem setReg_fl (r : Reg) (v : Byte) : (s.setReg r v).fl = s.fl := rfl
@[simp] theorem setReg_status (r : Reg) (v : Byte) : (s.setReg r v).status = s.status := rfl
@[simp] theorem setReg_fault (r : Reg) (v : Byte) : (s.setReg r v).fault = s.fault := rfl
@[simp] theorem setReg_cycles (r : Reg) (v : Byte) : (s.setReg r v).cycles = s.cycles := rfl
@[simp] theorem setReg_out (r : Reg) (v : Byte) : (s.setReg r v).out = s.out := rfl
@[simp] theorem setReg_cycleLimit (r : Reg) (v : Byte) : (s.setReg r v).cycleLimit = s.cycleLimit := rfl

/-! ### setFL -/

@[simp] theorem setFL_mem (f : Flag) : (s.setFL f).mem = s.mem := rfl
@[simp] theorem setFL_regs (f : Flag) : (s.setFL f).regs = s.regs := rfl
@[simp] theorem setFL_pc (f : Flag) : (s.setFL f).pc = s.pc := rfl
@[simp] theorem setFL_sp (f : Flag) : (s.setFL f).sp = s.sp := rfl
@[simp] theorem setFL_fl (f : Flag) : (s.setFL f).fl = f := rfl
@[simp] theorem setFL_status (f : Flag) : (s.setFL f).status = s.status := rfl
@[simp] theorem setFL_fault (f : Flag) : (s.setFL f).fault = s.fault := rfl
@[simp] theorem setFL_cycles (f : Flag) : (s.setFL f).cycles = s.cycles := rfl
@[simp] theorem setFL_out (f : Flag) : (s.setFL f).out = s.out := rfl
@[simp] theorem setFL_cycleLimit (f : Flag) : (s.setFL f).cycleLimit = s.cycleLimit := rfl
@[simp] theorem setFL_getReg (f : Flag) (q : Reg) : (s.setFL f).getReg q = s.getReg q := rfl

/-! ### emit -/

@[simp] theorem emit_mem (v : Byte) : (s.emit v).mem = s.mem := rfl
@[simp] theorem emit_regs (v : Byte) : (s.emit v).regs = s.regs := rfl
@[simp] theorem emit_pc (v : Byte) : (s.emit v).pc = s.pc := rfl
@[simp] theorem emit_sp (v : Byte) : (s.emit v).sp = s.sp := rfl
@[simp] theorem emit_fl (v : Byte) : (s.emit v).fl = s.fl := rfl
@[simp] theorem emit_status (v : Byte) : (s.emit v).status = s.status := rfl
@[simp] theorem emit_fault (v : Byte) : (s.emit v).fault = s.fault := rfl
@[simp] theorem emit_cycles (v : Byte) : (s.emit v).cycles = s.cycles := rfl
@[simp] theorem emit_out (v : Byte) : (s.emit v).out = s.out ++ [v] := rfl
@[simp] theorem emit_cycleLimit (v : Byte) : (s.emit v).cycleLimit = s.cycleLimit := rfl
@[simp] theorem emit_getReg (v : Byte) (q : Reg) : (s.emit v).getReg q = s.getReg q := rfl

/-! ### halt -/

@[simp] theorem halt_mem : (s.halt).mem = s.mem := rfl
@[simp] theorem halt_regs : (s.halt).regs = s.regs := rfl
@[simp] theorem halt_pc : (s.halt).pc = s.pc := rfl
@[simp] theorem halt_sp : (s.halt).sp = s.sp := rfl
@[simp] theorem halt_fl : (s.halt).fl = s.fl := rfl
@[simp] theorem halt_status : (s.halt).status = .halted := rfl
@[simp] theorem halt_fault : (s.halt).fault = s.fault := rfl
@[simp] theorem halt_cycles : (s.halt).cycles = s.cycles := rfl
@[simp] theorem halt_out : (s.halt).out = s.out := rfl
@[simp] theorem halt_cycleLimit : (s.halt).cycleLimit = s.cycleLimit := rfl
@[simp] theorem halt_getReg (q : Reg) : (s.halt).getReg q = s.getReg q := rfl

/-! ### countCycle -/

@[simp] theorem countCycle_mem : (s.countCycle).mem = s.mem := rfl
@[simp] theorem countCycle_regs : (s.countCycle).regs = s.regs := rfl
@[simp] theorem countCycle_pc : (s.countCycle).pc = s.pc := rfl
@[simp] theorem countCycle_sp : (s.countCycle).sp = s.sp := rfl
@[simp] theorem countCycle_fl : (s.countCycle).fl = s.fl := rfl
@[simp] theorem countCycle_status : (s.countCycle).status = s.status := rfl
@[simp] theorem countCycle_fault : (s.countCycle).fault = s.fault := rfl
@[simp] theorem countCycle_cycles : (s.countCycle).cycles = s.cycles + 1 := rfl
@[simp] theorem countCycle_out : (s.countCycle).out = s.out := rfl
@[simp] theorem countCycle_cycleLimit : (s.countCycle).cycleLimit = s.cycleLimit := rfl
@[simp] theorem countCycle_getReg (q : Reg) : (s.countCycle).getReg q = s.getReg q := rfl

/-! ### takeFault -/

@[simp] theorem takeFault_mem (k : FaultKind) : (takeFault k s).mem = s.mem := rfl
@[simp] theorem takeFault_regs (k : FaultKind) : (takeFault k s).regs = s.regs := rfl
@[simp] theorem takeFault_pc (k : FaultKind) : (takeFault k s).pc = s.pc := rfl
@[simp] theorem takeFault_sp (k : FaultKind) : (takeFault k s).sp = s.sp := rfl
@[simp] theorem takeFault_fl (k : FaultKind) : (takeFault k s).fl = s.fl := rfl
@[simp] theorem takeFault_status (k : FaultKind) : (takeFault k s).status = .halted := rfl
@[simp] theorem takeFault_fault (k : FaultKind) : (takeFault k s).fault = some ⟨k, s.pc⟩ := rfl
@[simp] theorem takeFault_cycles (k : FaultKind) : (takeFault k s).cycles = s.cycles := rfl
@[simp] theorem takeFault_out (k : FaultKind) : (takeFault k s).out = s.out := rfl
@[simp] theorem takeFault_cycleLimit (k : FaultKind) : (takeFault k s).cycleLimit = s.cycleLimit := rfl
@[simp] theorem takeFault_getReg (k : FaultKind) (q : Reg) : (takeFault k s).getReg q = s.getReg q := rfl

/-! ### The register file -/

@[simp] theorem get_set_same (x : Regs) (r : Reg) (v : Byte) : (x.set r v).get r = v := by
  cases r <;> rfl

theorem get_set_other (x : Regs) (r q : Reg) (v : Byte) (h : q ≠ r) : (x.set r v).get q = x.get q := by
  cases r <;> cases q <;> first | rfl | exact absurd rfl h

theorem get_set (x : Regs) (r q : Reg) (v : Byte) : (x.set r v).get q = if q = r then v else x.get q := by
  split
  · next h => subst h; exact get_set_same x q v
  · next h => exact get_set_other x r q v h

theorem setReg_getReg (r q : Reg) (v : Byte) : (s.setReg r v).getReg q = if q = r then v else s.getReg q :=
  get_set s.regs r q v

end Sys2Proof.Machine
end

