-- ==== Sys2Proof/Laws/Ops.lean ====
section
/-! SUPPORT. One lemma per shared operation that says all it can do. -/

namespace Sys2Proof.Machine

/-! ### Raising and going on -/

@[simp] theorem ok_bind {α β : Type} (a : α) (f : α → Except FaultKind β) : (Except.ok a >>= f) = f a := rfl

@[simp] theorem error_bind {α β : Type} (k : FaultKind) (f : α → Except FaultKind β) :
    ((Except.error k : Except FaultKind α) >>= f) = .error k := rfl

@[simp] theorem pure_eq_ok {α : Type} (a : α) : (pure a : Except FaultKind α) = .ok a := rfl

theorem bind_eq_ok_iff {α β : Type} (x : Except FaultKind α) (f : α → Except FaultKind β) (b : β) :
    (x >>= f) = .ok b ↔ ∃ a, x = .ok a ∧ f a = .ok b := by
  cases x <;> simp

/-! ### Addresses -/

theorem val_nonneg (b : Byte) : 0 ≤ val b := Int.natCast_nonneg _

theorem val_lt (b : Byte) : val b < 256 := by have := b.isLt; unfold val; omega

@[simp] theorem u8_val (b : Byte) : u8 (val b) = b := by simp [u8, val]

theorem u8_natCast (n : Nat) : u8 (n : Int) = BitVec.ofNat 8 n := by simp [u8]

theorem val_u8 (v : Int) : val (u8 v) = v % 256 := by
  simp [val, u8, BitVec.toNat_ofInt, Int.toNat_of_nonneg (Int.emod_nonneg v (by decide : (256 : Int) ≠ 0))]

/-- The range check in full. -/
theorem asAddress_eq (v : Int) : asAddress v = if 0 ≤ v ∧ v < 256 then .ok (u8 v) else .error .addressing := by
  cases v with
  | ofNat n =>
    have h : (0 ≤ Int.ofNat n ∧ Int.ofNat n < 256) ↔ n < 256 := by simp only [Int.ofNat_eq_natCast]; omega
    simp only [asAddress, h]; rfl
  | negSucc n => rw [if_neg (by omega)]; rfl

@[simp] theorem asAddress_val (b : Byte) : asAddress (val b) = .ok b := by
  simp [asAddress_eq, val_nonneg, val_lt]

theorem asAddress_ok_iff (v : Int) (b : Byte) : asAddress v = .ok b ↔ v = val b := by
  constructor
  · intro h
    rw [asAddress_eq] at h
    split at h
    · next hv => cases h; rw [val_u8]; omega
    · cases h
  · rintro rfl; exact asAddress_val b

theorem asAddress_error_iff (v : Int) (k : FaultKind) :
    asAddress v = .error k ↔ k = .addressing ∧ (v < 0 ∨ 256 ≤ v) := by
  rw [asAddress_eq]
  split
  · next hv => simp; omega
  · next hv =>
    constructor
    · intro h; cases h; exact ⟨rfl, by omega⟩
    · rintro ⟨rfl, -⟩; rfl

/-- The address `n` past `b`, while it is one. -/
theorem asAddress_add {b : Byte} {n : Nat} (h : b.toNat + n ≤ 255) :
    asAddress (val b + n) = .ok (b + BitVec.ofNat 8 n) := by
  rw [asAddress_ok_iff]
  simp [val, BitVec.toNat_add, Nat.mod_eq_of_lt (by omega : n < 256), Nat.mod_eq_of_lt (by omega : b.toNat + n < 256)]

theorem asAddress_add_past {b : Byte} {n : Nat} (h : 255 < b.toNat + n) : asAddress (val b + n) = .error .addressing := by
  rw [asAddress_error_iff]; exact ⟨rfl, .inr (by unfold val; omega)⟩

/-- The address below `b`, where there is one. -/
theorem asAddress_sub_one (b : Byte) :
    asAddress (val b - 1) = if b.toNat = 0 then .error .addressing else .ok (b - 1#8) := by
  have := b.isLt
  split
  · next h => exact (asAddress_error_iff _ _).2 ⟨rfl, .inl (by unfold val; omega)⟩
  · next h => rw [asAddress_ok_iff]; unfold val; rw [BitVec.toNat_sub]; norm_num; omega

/-! ### The primitives -/

@[simp] theorem memRead_val (b : Byte) (s : State) : memRead (val b) s = .ok (s.mem.read b.toNat) := by simp [memRead]

@[simp] theorem setPC_val (b : Byte) (s : State) : setPC (val b) s = .ok { s with pc := b } := by simp [setPC]

@[simp] theorem setSP_val (b : Byte) (s : State) : setSP (val b) s = .ok { s with sp := b } := by simp [setSP]

theorem setPC_add {b : Byte} {n : Nat} (h : b.toNat + n ≤ 255) (s : State) :
    setPC (val b + n) s = .ok { s with pc := b + BitVec.ofNat 8 n } := by simp [setPC, asAddress_add h]

theorem setPC_add_past {b : Byte} {n : Nat} (h : 255 < b.toNat + n) (s : State) :
    setPC (val b + n) s = .error .addressing := by simp [setPC, asAddress_add_past h]

theorem setPC_ok_iff (v : Int) (s t : State) : setPC v s = .ok t ↔ ∃ b, v = val b ∧ t = { s with pc := b } := by
  unfold setPC
  split
  · next k hk =>
    rw [asAddress_error_iff] at hk
    simp only [reduceCtorEq, false_iff, not_exists, not_and]
    intro b hb; have := val_nonneg b; have := val_lt b; omega
  · next b hb =>
    rw [asAddress_ok_iff] at hb; subst hb
    constructor
    · intro h; cases h; exact ⟨b, rfl, rfl⟩
    · rintro ⟨c, hc, rfl⟩
      have : b = c := by rw [← asAddress_ok_iff, asAddress_val] at hc; exact Except.ok.inj hc
      rw [this]

/-! ### Register operands -/

@[simp] theorem regIdx_byte (r : Reg) : regIdx r.byte = .ok r := by cases r <;> rfl

theorem byte_toNat_le (r : Reg) : r.byte.toNat ≤ 4 := by cases r <;> decide

/-- `RegIdx` names a register exactly on that register's byte. -/
theorem regIdx_ok_iff (b : Byte) (r : Reg) : regIdx b = .ok r ↔ b = r.byte := by
  constructor
  · intro h
    apply BitVec.eq_of_toNat_eq
    unfold regIdx at h
    split at h <;> cases h <;> simp_all [Reg.byte]
  · rintro rfl; exact regIdx_byte r

/-- `RegIdx` raises exactly on the bytes above 4, and then RegisterIndexFault. -/
theorem regIdx_error_iff (b : Byte) (k : FaultKind) : regIdx b = .error k ↔ k = .registerIndex ∧ 4 < b.toNat := by
  constructor
  · intro h
    have hk : k = .registerIndex := by
      unfold regIdx at h; split at h <;> cases h; rfl
    refine ⟨hk, ?_⟩
    by_contra hle
    have : b.toNat = 0 ∨ b.toNat = 1 ∨ b.toNat = 2 ∨ b.toNat = 3 ∨ b.toNat = 4 := by omega
    rcases this with h0 | h0 | h0 | h0 | h0 <;> simp [regIdx, h0] at h
  · rintro ⟨rfl, hb⟩
    unfold regIdx
    split <;> first | rfl | omega

theorem regIdx_cases (b : Byte) : (∃ r : Reg, b = r.byte) ∨ (4 < b.toNat ∧ regIdx b = .error .registerIndex) := by
  cases h : regIdx b with
  | ok r => exact .inl ⟨r, (regIdx_ok_iff b r).1 h⟩
  | error k =>
    obtain ⟨rfl, hb⟩ := (regIdx_error_iff b k).1 h
    exact .inr ⟨hb, rfl⟩

/-! ### The stack -/

/-- A push in full: AddressingFault at SP = 0, else one cell and SP. -/
theorem stackPush_eq (v : Byte) (s : State) :
    stackPush v s = if s.sp.toNat = 0 then .error .addressing
      else .ok { s with mem := s.mem.write (s.sp.toNat - 1) v, sp := s.sp - 1#8 } := by
  have := s.sp.isLt
  by_cases h : s.sp.toNat = 0
  · simp [stackPush, memWrite, asAddress_sub_one, h]
  · have hnat : (s.sp - 1#8).toNat = s.sp.toNat - 1 := by rw [BitVec.toNat_sub]; norm_num; omega
    simp [stackPush, memWrite, setSP, asAddress_sub_one, h, hnat]

/-- A pop in full: AddressingFault at SP = 255, else the byte at SP, and SP. -/
theorem stackPop_eq (s : State) :
    stackPop s = if s.sp.toNat = 255 then .error .addressing
      else .ok (s.mem.read s.sp.toNat, { s with sp := s.sp + 1#8 }) := by
  unfold stackPop
  split
  · next h =>
    have : asAddress (val s.sp + 1) = .error .addressing := asAddress_add_past (n := 1) (by omega)
    simp [setSP, this]
  · next h =>
    have := s.sp.isLt
    have : asAddress (val s.sp + 1) = .ok (s.sp + 1#8) := asAddress_add (n := 1) (by omega)
    simp [setSP, this]

/-! ### Sequencing and commit -/

theorem sequence_handler {op : Opcode} (h : op.adv = 0) (pc : Byte) (t : State) : sequence op pc t = .ok t := by
  simp [sequence, h]

theorem sequence_loop {op : Opcode} (h : op.adv ≠ 0) (pc : Byte) (t : State) :
    sequence op pc t = if pc.toNat + op.adv ≤ 255 then .ok { t with pc := pc + BitVec.ofNat 8 op.adv }
      else .error .addressing := by
  simp only [sequence, if_neg h]
  split
  · next hle => exact setPC_add hle t
  · next hgt => exact setPC_add_past (by omega) t

@[simp] theorem runHandler_error (op : Opcode) (s : State) (k : FaultKind) :
    runHandler op s (.error k) = .next (takeFault k s) := rfl

theorem runHandler_ok (op : Opcode) (s t : State) :
    runHandler op s (.ok t) = match sequence op s.pc t with
      | .error k => .next (takeFault k s)
      | .ok u => .next u.countCycle := rfl

/-- A handler's run ends in one of two ways: a fault taken in the state it started in, or a commit. -/
theorem runHandler_cases {op : Opcode} {s t : State} {h : Except FaultKind State} (hr : runHandler op s h = .next t) :
    (∃ k, t = takeFault k s) ∨ (∃ u v, h = .ok u ∧ sequence op s.pc u = .ok v ∧ t = v.countCycle) := by
  cases h with
  | error k => exact .inl ⟨k, by simpa using hr.symm⟩
  | ok u =>
    rw [runHandler_ok] at hr
    split at hr
    · next k _ => exact .inl ⟨k, by simpa using hr.symm⟩
    · next v hv => exact .inr ⟨u, v, rfl, hv, by simpa using hr.symm⟩

theorem runHandler_next (op : Opcode) (s : State) (h : Except FaultKind State) : ∃ t, runHandler op s h = .next t := by
  cases h with
  | error k => exact ⟨_, rfl⟩
  | ok u => rw [runHandler_ok]; split <;> exact ⟨_, rfl⟩

end Sys2Proof.Machine
end

