-- ==== Sys2Proof/Laws/Decode.lean ====
section
/-! SUPPORT. The opcode lookup, the length of an instruction, and the bytes a fetch sees. -/

namespace Sys2Proof

@[simp] theorem ofByte_byte (o : Opcode) : Opcode.ofByte o.byte = some o := by cases o <;> rfl

/-- The lookup finds an opcode exactly at that opcode's byte: no two opcodes share one. -/
theorem ofByte_eq_some_iff (b : Byte) (o : Opcode) : Opcode.ofByte b = some o ↔ b = o.byte := by
  constructor
  · intro h
    have := List.find?_some h
    simpa using (beq_iff_eq.1 this).symm
  · rintro rfl; exact ofByte_byte o

theorem ofByte_eq_none_iff (b : Byte) : Opcode.ofByte b = none ↔ ∀ o : Opcode, o.byte ≠ b := by
  constructor
  · intro h o ho; rw [← ho, ofByte_byte] at h; cases h
  · intro h
    cases hb : Opcode.ofByte b with
    | none => rfl
    | some o => exact absurd ((ofByte_eq_some_iff b o).1 hb).symm (h o)

theorem operandBytes_length (i : Instr) : i.operandBytes.length = i.opcode.operandCount := by cases i <;> rfl

theorem encode_length (i : Instr) : (encode i).length = i.opcode.length := by
  simp [encode, Opcode.length, operandBytes_length, Nat.add_comm]

/-- Decoding an opcode's operands gives an instruction of that opcode. -/
theorem decodeOperands_opcode {rd : Nat → Option Byte} {o : Opcode} {i : Instr} (h : decodeOperands rd o = .ok i) :
    i.opcode = o := by
  cases o <;> simp only [decodeOperands, withOperand, withOperands] at h <;> (repeat' split at h) <;> cases h <;> rfl

/-- An opcode's operands decode exactly when the source gives that instruction's operand bytes. -/
theorem decodeOperands_ok_iff (rd : Nat → Option Byte) (o : Opcode) (i : Instr) :
    decodeOperands rd o = .ok i ↔
      i.opcode = o ∧ ∀ k (h : k < i.operandBytes.length), rd (k + 1) = some i.operandBytes[k] := by
  constructor
  · intro h
    refine ⟨decodeOperands_opcode h, ?_⟩
    cases o <;> simp only [decodeOperands, withOperand, withOperands] at h <;> (repeat' split at h) <;> cases h <;>
      intro k hk <;> rcases k with _ | _ | k <;>
      first
      | assumption
      | exact absurd hk (by simp [Instr.operandBytes])
  · rintro ⟨rfl, h⟩
    cases i <;> simp only [decodeOperands, withOperand, withOperands, Instr.opcode] <;>
      first
      | (have h1 := h 0 (by decide : (0 : Nat) < 2)
         have h2 := h 1 (by decide : (1 : Nat) < 2)
         simp only [Instr.operandBytes, Nat.zero_add, Nat.reduceAdd, List.getElem_cons_zero, List.getElem_cons_succ] at h1 h2
         rw [h1, h2])
      | (have h1 := h 0 (by decide : (0 : Nat) < 1)
         simp only [Instr.operandBytes, Nat.zero_add, List.getElem_cons_zero] at h1
         rw [h1])

/-- Decoding an opcode's operands fails only on an operand byte that is not there. -/
theorem decodeOperands_error {rd : Nat → Option Byte} {o : Opcode} {r : Reject} (h : decodeOperands rd o = .error r) :
    ∃ k, r = .missingByte k ∧ rd k = none ∧ k ≤ o.operandCount := by
  cases o <;> simp only [decodeOperands, withOperand, withOperands] at h <;> (repeat' split at h) <;> cases h <;>
    exact ⟨_, rfl, by assumption, by decide⟩

theorem length_le (o : Opcode) : o.length ≤ 3 := by cases o <;> decide

end Sys2Proof

namespace Sys2Proof.Machine

/-- The bytes a fetch can see, one by one: those at addresses up to 255. -/
theorem codeByte_eq (s : State) (k : Nat) :
    codeByte s k = if s.pc.toNat + k ≤ 255 then some (s.mem.read (s.pc.toNat + k)) else none := by
  unfold codeByte memRead
  by_cases h : s.pc.toNat + k ≤ 255
  · simp [h, asAddress_add h, BitVec.toNat_add, Nat.mod_eq_of_lt (by omega : s.pc.toNat + k < 256)]
  · simp [h, asAddress_add_past (by omega : 255 < s.pc.toNat + k)]

/-- The list of the bytes from PC up holds the bytes a fetch asks for. -/
theorem codeBytes_getElem? (s : State) (k : Nat) : (codeBytes s)[k]? = codeByte s k := by
  have := s.pc.isLt
  rw [codeByte_eq]
  unfold codeBytes
  split
  · next h => rw [List.getElem?_map, List.getElem?_range (by simp [Config.memSize]; omega)]; rfl
  · next h => rw [List.getElem?_eq_none (by simp [Config.memSize]; omega)]

/-- The opcode fetch never faults (60_exceptions.md R201). -/
theorem codeByte_zero (s : State) : codeByte s 0 = some (s.mem.read s.pc.toNat) := by
  have := s.pc.isLt
  rw [codeByte_eq, if_pos (by omega)]; rfl

/-- A fetch in full: the opcode byte is always there. -/
theorem decodeFrom_codeByte (s : State) :
    decodeFrom (codeByte s) = match Opcode.ofByte (s.mem.read s.pc.toNat) with
      | none => .error (.illegalOpcode (s.mem.read s.pc.toNat))
      | some o => decodeOperands (codeByte s) o := by
  simp only [decodeFrom, codeByte_zero] <;> rfl

theorem fetch_ok_iff (s : State) (i : Instr) : fetch s = .ok i ↔ decodeFrom (codeByte s) = .ok i := by
  unfold fetch; split <;> simp_all

/-- A fetch raises only IllegalInstruction and AddressingFault. -/
theorem fetch_error_cases {s : State} {k : FaultKind} (h : fetch s = .error k) :
    (k = .illegalInstruction ∧ ∃ b, decodeFrom (codeByte s) = .error (.illegalOpcode b)) ∨
    (k = .addressing ∧ ∃ n, decodeFrom (codeByte s) = .error (.missingByte n)) := by
  unfold fetch at h
  split at h
  · cases h
  · next b hb => cases h; exact .inl ⟨rfl, b, hb⟩
  · next n hn => cases h; exact .inr ⟨rfl, n, hn⟩

/-- The instruction of an opcode and two operand bytes, of which it uses the first N. -/
def instrOf (o : Opcode) (a b : Byte) : Instr :=
  match o with
  | .hlt => .hlt
  | .ret => .ret
  | .push => .push a
  | .pop => .pop a
  | .prn => .prn a
  | .call => .call a
  | .jmp => .jmp a
  | .jeq => .jeq a
  | .jne => .jne a
  | .inc => .inc a
  | .dec => .dec a
  | .ldi => .ldi a b
  | .add => .add a b
  | .sub => .sub a b
  | .mul => .mul a b
  | .div => .div a b
  | .cmp => .cmp a b

@[simp] theorem instrOf_opcode (o : Opcode) (a b : Byte) : (instrOf o a b).opcode = o := by cases o <;> rfl

/-- A fetch in one equation: the opcode looked up, then its operand bytes, if they lie in memory. -/
theorem fetch_eq (s : State) :
    fetch s = match Opcode.ofByte (s.mem.read s.pc.toNat) with
      | none => .error .illegalInstruction
      | some o =>
        if 255 < s.pc.toNat + o.operandCount then .error .addressing
        else .ok (instrOf o (s.mem.read (s.pc.toNat + 1)) (s.mem.read (s.pc.toNat + 2))) := by
  unfold fetch
  rw [decodeFrom_codeByte]
  have hlt := s.pc.isLt
  cases Opcode.ofByte (s.mem.read s.pc.toNat) with
  | none => rfl
  | some o =>
    have hc : ∀ k, codeByte s k = if s.pc.toNat + k ≤ 255 then some (s.mem.read (s.pc.toNat + k)) else none := codeByte_eq s
    by_cases h1 : s.pc.toNat + 1 ≤ 255
    · by_cases h2 : s.pc.toNat + 2 ≤ 255
      · cases o <;> simp only [decodeOperands, withOperand, withOperands, hc, if_pos h1, if_pos h2, instrOf] <;>
          rw [if_neg (by simp only [Opcode.operandCount]; omega)]
      · cases o <;> simp only [decodeOperands, withOperand, withOperands, hc, if_pos h1, if_neg h2, instrOf] <;>
          first
          | rw [if_neg (by simp only [Opcode.operandCount]; omega)]
          | rw [if_pos (by simp only [Opcode.operandCount]; omega)]
    · cases o <;> simp only [decodeOperands, withOperand, withOperands, hc, if_neg h1, instrOf] <;>
        first
        | rw [if_neg (by simp only [Opcode.operandCount]; omega)]
        | rw [if_pos (by simp only [Opcode.operandCount]; omega)]

theorem fetch_illegal {s : State} (h : Opcode.ofByte (s.mem.read s.pc.toNat) = none) :
    fetch s = .error .illegalInstruction := by
  rw [fetch_eq, h]

theorem fetch_past {s : State} {o : Opcode} (h : s.mem.read s.pc.toNat = o.byte)
    (hpc : 255 < s.pc.toNat + o.operandCount) : fetch s = .error .addressing := by
  rw [fetch_eq, h, ofByte_byte]; exact if_pos hpc

theorem fetch_of_opcode {s : State} {o : Opcode} (h : s.mem.read s.pc.toNat = o.byte)
    (hpc : s.pc.toNat + o.operandCount ≤ 255) :
    fetch s = .ok (instrOf o (s.mem.read (s.pc.toNat + 1)) (s.mem.read (s.pc.toNat + 2))) := by
  rw [fetch_eq, h, ofByte_byte]; exact if_neg (by omega)

/-- What was fetched carries the opcode byte at PC. -/
theorem fetch_ok_opcode {s : State} {i : Instr} (h : fetch s = .ok i) : s.mem.read s.pc.toNat = i.opcode.byte := by
  rw [fetch_ok_iff, decodeFrom_codeByte] at h
  cases ho : Opcode.ofByte (s.mem.read s.pc.toNat) with
  | none => simp [ho] at h
  | some o =>
    rw [ho] at h
    rw [(ofByte_eq_some_iff _ o).1 ho, decodeOperands_opcode h]

end Sys2Proof.Machine
end

