-- ==== Sys2Proof/Laws/Exec.lean ====
section
/-! SUPPORT. The handlers, `exec` and `step`: what each can answer. -/

namespace Sys2Proof.Machine

/-- The handler that an instruction's meaning runs. -/
def handlerOf (i : Instr) (s : State) : Except FaultKind State :=
  match i with
  | .hlt => hltHandler s
  | .ret => retHandler s
  | .push a => pushHandler a s
  | .pop a => popHandler a s
  | .prn a => prnHandler a s
  | .call a => callHandler a s
  | .jmp a => jmpHandler a s
  | .jeq a => branchHandler s.fl.isEqual a s
  | .jne a => branchHandler (!s.fl.isEqual) a s
  | .inc a => unaryHandler (fun p => p + 1) a s
  | .dec a => unaryHandler (fun p => p - 1) a s
  | .ldi a b => ldiHandler a b s
  | .add a b => binaryHandler (fun p q => p + q) a b s
  | .sub a b => binaryHandler (fun p q => p - q) a b s
  | .mul a b => binaryHandler (fun p q => p * q) a b s
  | .div a b => divHandler a b s
  | .cmp a b => cmpHandler a b s

theorem exec_eq_runHandler (i : Instr) (s : State) : exec i s = runHandler i.opcode s (handlerOf i s) := by
  cases i <;> rfl

/-- Every instruction answers a next state: a commit or a fault taken. -/
theorem exec_next (i : Instr) (s : State) : ∃ t, exec i s = .next t := by
  rw [exec_eq_runHandler]; exact runHandler_next _ _ _

theorem exec_cases {i : Instr} {s t : State} (h : exec i s = .next t) :
    (∃ k, t = takeFault k s) ∨
      (∃ u v, handlerOf i s = .ok u ∧ sequence i.opcode s.pc u = .ok v ∧ t = v.countCycle) := by
  rw [exec_eq_runHandler] at h; exact runHandler_cases h

/-! ### The handlers on operands that name registers -/

@[simp] theorem binaryHandler_byte (f : Int → Int → Int) (ra rb : Reg) (s : State) :
    binaryHandler f ra.byte rb.byte s = .ok (s.setReg ra (u8 (f (val (s.getReg ra)) (val (s.getReg rb))))) := by
  simp [binaryHandler]

@[simp] theorem unaryHandler_byte (f : Int → Int) (ra : Reg) (s : State) :
    unaryHandler f ra.byte s = .ok (s.setReg ra (u8 (f (val (s.getReg ra))))) := by
  simp [unaryHandler]

theorem divHandler_byte (ra rb : Reg) (s : State) :
    divHandler ra.byte rb.byte s = if s.getReg rb = 0#8 then .error .divisionByZero
      else .ok (s.setReg ra (BitVec.ofNat 8 ((s.getReg ra).toNat / (s.getReg rb).toNat))) := by
  have hz : val (s.getReg rb) = 0 ↔ s.getReg rb = 0#8 := by
    rw [← BitVec.toNat_inj]; simp [val]
  unfold divHandler
  simp only [regIdx_byte, ok_bind, pure_eq_ok, hz]
  split
  · rfl
  · rw [← u8_natCast]; rfl

@[simp] theorem cmpHandler_byte (ra rb : Reg) (s : State) :
    cmpHandler ra.byte rb.byte s = .ok (s.setFL (compareFlag (s.getReg ra) (s.getReg rb))) := by
  simp [cmpHandler]

@[simp] theorem ldiHandler_byte (ra : Reg) (b : Byte) (s : State) : ldiHandler ra.byte b s = .ok (s.setReg ra b) := by
  simp [ldiHandler, imm]

@[simp] theorem prnHandler_byte (ra : Reg) (s : State) : prnHandler ra.byte s = .ok (s.emit (s.getReg ra)) := by
  simp [prnHandler]

theorem pushHandler_byte (ra : Reg) (s : State) : pushHandler ra.byte s = stackPush (s.getReg ra) s := by
  simp [pushHandler]

theorem popHandler_byte (ra : Reg) (s : State) :
    popHandler ra.byte s = if s.sp.toNat = 255 then .error .addressing
      else .ok (State.setReg { s with sp := s.sp + 1#8 } ra (s.mem.read s.sp.toNat)) := by
  simp only [popHandler, regIdx_byte, ok_bind, stackPop_eq]
  split <;> rfl

theorem retHandler_eq (s : State) :
    retHandler s = if s.sp.toNat = 255 then .error .addressing
      else .ok { s with sp := s.sp + 1#8, pc := s.mem.read s.sp.toNat } := by
  simp only [retHandler, stackPop_eq]
  split <;> simp

theorem callHandler_byte (ra : Reg) (s : State) :
    callHandler ra.byte s = if 254 ≤ s.pc.toNat ∨ s.sp.toNat = 0 then .error .addressing
      else .ok { s with mem := s.mem.write (s.sp.toNat - 1) (s.pc + 2#8), sp := s.sp - 1#8, pc := s.getReg ra } := by
  simp only [callHandler, regIdx_byte, ok_bind, stackPush_eq]
  by_cases hp : 254 ≤ s.pc.toNat
  · rw [if_pos (.inl hp)]
    rw [show asAddress (val s.pc + 2) = .error .addressing from asAddress_add_past (n := 2) (by omega)]
    rfl
  · rw [show asAddress (val s.pc + 2) = .ok (s.pc + 2#8) from asAddress_add (n := 2) (by omega)]
    by_cases hs : s.sp.toNat = 0 <;> simp [hp, hs]

@[simp] theorem jmpHandler_byte (ra : Reg) (s : State) : jmpHandler ra.byte s = .ok { s with pc := s.getReg ra } := by
  simp [jmpHandler]

theorem branchHandler_byte (taken : Bool) (ra : Reg) (s : State) :
    branchHandler taken ra.byte s = if taken then .ok { s with pc := s.getReg ra }
      else if 254 ≤ s.pc.toNat then .error .addressing else .ok { s with pc := s.pc + 2#8 } := by
  simp only [branchHandler, regIdx_byte, ok_bind]
  cases taken with
  | true => simp
  | false =>
    by_cases hp : 254 ≤ s.pc.toNat
    · simpa [hp] using setPC_add_past (n := 2) (by omega) s
    · simpa [hp] using setPC_add (n := 2) (by omega) s

theorem hltHandler_eq (s : State) :
    hltHandler s = if s.pc.toNat = 255 then .error .addressing
      else .ok { s with pc := s.pc + 1#8, status := .halted } := by
  unfold hltHandler
  split
  · next h => rw [show setPC (val s.pc + 1) s = .error .addressing from setPC_add_past (n := 1) (by omega) s]; rfl
  · next h =>
    have := s.pc.isLt
    rw [show setPC (val s.pc + 1) s = .ok { s with pc := s.pc + 1#8 } from setPC_add (n := 1) (by omega) s]; rfl

/-- A register operand byte above 4 raises RegisterIndexFault before anything else the handler does. -/
theorem handlerOf_badIndex {i : Instr} (s : State) (h : i.wellFormed = false) :
    handlerOf i s = .error .registerIndex := by
  have bad : ∀ b : Byte, ¬ b.toNat ≤ 4 → regIdx b = .error .registerIndex :=
    fun b hb => (regIdx_error_iff b _).2 ⟨rfl, by omega⟩
  cases i <;>
    simp only [Instr.wellFormed, Instr.registerBytes, List.all_cons, List.all_nil, Bool.and_true,
      Bool.and_eq_false_iff, namesRegister, decide_eq_false_iff_not, Bool.true_eq_false] at h
  case push => simp [handlerOf, pushHandler, bad _ h]
  case pop => simp [handlerOf, popHandler, bad _ h]
  case prn => simp [handlerOf, prnHandler, bad _ h]
  case call => simp [handlerOf, callHandler, bad _ h]
  case jmp => simp [handlerOf, jmpHandler, bad _ h]
  case jeq => simp [handlerOf, branchHandler, bad _ h]
  case jne => simp [handlerOf, branchHandler, bad _ h]
  case inc => simp [handlerOf, unaryHandler, bad _ h]
  case dec => simp [handlerOf, unaryHandler, bad _ h]
  case ldi => simp [handlerOf, ldiHandler, bad _ h]
  all_goals
    rename_i a b
    rcases regIdx_cases a with ⟨ra, rfl⟩ | ⟨ha, hae⟩
    · have hb := h.resolve_left (fun hn => hn (byte_toNat_le ra))
      simp [handlerOf, binaryHandler, divHandler, cmpHandler, bad _ hb]
    · simp [handlerOf, binaryHandler, divHandler, cmpHandler, hae]

/-- Every operand byte of a well-formed instruction is some register's. -/
theorem namesRegister_iff (b : Byte) : namesRegister b = true ↔ ∃ r : Reg, b = r.byte := by
  rcases regIdx_cases b with ⟨r, rfl⟩ | ⟨h4, -⟩
  · simp only [namesRegister, byte_toNat_le, decide_true, true_iff]; exact ⟨r, rfl⟩
  · simp only [namesRegister, decide_eq_true_eq]
    constructor
    · intro h; omega
    · rintro ⟨r, rfl⟩; have := byte_toNat_le r; omega

/-! ### `exec`, by what its handler answers -/

theorem exec_of_error {i : Instr} {s : State} {k : FaultKind} (h : handlerOf i s = .error k) :
    exec i s = .next (takeFault k s) := by
  rw [exec_eq_runHandler, h, runHandler_error]

theorem exec_of_ok_handler {i : Instr} {s u : State} (h : handlerOf i s = .ok u) (ha : i.opcode.adv = 0) :
    exec i s = .next u.countCycle := by
  rw [exec_eq_runHandler, h, runHandler_ok, sequence_handler ha]

theorem exec_of_ok_loop {i : Instr} {s u : State} (h : handlerOf i s = .ok u) (ha : i.opcode.adv ≠ 0)
    (hpc : s.pc.toNat + i.opcode.adv ≤ 255) :
    exec i s = .next { u with pc := s.pc + BitVec.ofNat 8 i.opcode.adv, cycles := u.cycles + 1 } := by
  rw [exec_eq_runHandler, h, runHandler_ok, sequence_loop ha, if_pos hpc]; rfl

theorem exec_of_ok_past {i : Instr} {s u : State} (h : handlerOf i s = .ok u) (ha : i.opcode.adv ≠ 0)
    (hpc : 255 < s.pc.toNat + i.opcode.adv) : exec i s = .next (takeFault .addressing s) := by
  rw [exec_eq_runHandler, h, runHandler_ok, sequence_loop ha, if_neg (by omega)]

theorem exec_badIndex {i : Instr} (s : State) (h : i.wellFormed = false) : exec i s = .next (takeFault .registerIndex s) :=
  exec_of_error (handlerOf_badIndex s h)

/-! ### The kinds an instruction raises -/

theorem asAddress_error_kind {v : Int} {k : FaultKind} (h : asAddress v = .error k) : k = .addressing :=
  ((asAddress_error_iff v k).1 h).1

/-- A handler on operands that name registers raises AddressingFault, or DivisionByZero where it is DIV's. -/
theorem handlerOf_error {i : Instr} {s : State} {k : FaultKind} (h : handlerOf i s = .error k) :
    (k = .registerIndex ∧ i.wellFormed = false) ∨
      (k = .divisionByZero ∧ ∃ ra rb : Reg, i = .div ra.byte rb.byte ∧ s.getReg rb = 0#8) ∨
      (k = .addressing ∧ i.wellFormed = true) := by
  cases hi : i.wellFormed with
  | false => rw [handlerOf_badIndex s hi] at h; cases h; exact .inl ⟨rfl, rfl⟩
  | true =>
    refine .inr ?_
    have hw := hi
    cases i <;> simp only [Instr.wellFormed, Instr.registerBytes, List.all_cons, List.all_nil, Bool.and_true,
      Bool.and_eq_true, namesRegister_iff] at hw
    case hlt => rw [handlerOf, hltHandler_eq] at h; split at h <;> cases h; exact .inr ⟨rfl, rfl⟩
    case ret => rw [handlerOf, retHandler_eq] at h; split at h <;> cases h; exact .inr ⟨rfl, rfl⟩
    case push =>
      obtain ⟨r, rfl⟩ := hw; rw [handlerOf, pushHandler_byte, stackPush_eq] at h; split at h <;> cases h; exact .inr ⟨rfl, rfl⟩
    case pop => obtain ⟨r, rfl⟩ := hw; rw [handlerOf, popHandler_byte] at h; split at h <;> cases h; exact .inr ⟨rfl, rfl⟩
    case call => obtain ⟨r, rfl⟩ := hw; rw [handlerOf, callHandler_byte] at h; split at h <;> cases h; exact .inr ⟨rfl, rfl⟩
    case jeq =>
      obtain ⟨r, rfl⟩ := hw; rw [handlerOf, branchHandler_byte] at h; (repeat' split at h) <;> cases h; exact .inr ⟨rfl, rfl⟩
    case jne =>
      obtain ⟨r, rfl⟩ := hw; rw [handlerOf, branchHandler_byte] at h; (repeat' split at h) <;> cases h; exact .inr ⟨rfl, rfl⟩
    case div =>
      obtain ⟨⟨ra, rfl⟩, rb, rfl⟩ := hw; rw [handlerOf, divHandler_byte] at h; split at h
      · next hz => cases h; exact .inl ⟨rfl, ra, rb, rfl, hz⟩
      · cases h
    case prn => obtain ⟨r, rfl⟩ := hw; rw [handlerOf, prnHandler_byte] at h; cases h
    case jmp => obtain ⟨r, rfl⟩ := hw; rw [handlerOf, jmpHandler_byte] at h; cases h
    case inc => obtain ⟨r, rfl⟩ := hw; rw [handlerOf, unaryHandler_byte] at h; cases h
    case dec => obtain ⟨r, rfl⟩ := hw; rw [handlerOf, unaryHandler_byte] at h; cases h
    case ldi => obtain ⟨r, rfl⟩ := hw; rw [handlerOf, ldiHandler_byte] at h; cases h
    case add => obtain ⟨⟨ra, rfl⟩, rb, rfl⟩ := hw; rw [handlerOf, binaryHandler_byte] at h; cases h
    case sub => obtain ⟨⟨ra, rfl⟩, rb, rfl⟩ := hw; rw [handlerOf, binaryHandler_byte] at h; cases h
    case mul => obtain ⟨⟨ra, rfl⟩, rb, rfl⟩ := hw; rw [handlerOf, binaryHandler_byte] at h; cases h
    case cmp => obtain ⟨⟨ra, rfl⟩, rb, rfl⟩ := hw; rw [handlerOf, cmpHandler_byte] at h; cases h

/-- The loop's advance raises only AddressingFault, and only past 255. -/
theorem sequence_error {op : Opcode} {pc : Byte} {u : State} {k : FaultKind} (h : sequence op pc u = .error k) :
    k = .addressing ∧ 255 < pc.toNat + op.adv := by
  by_cases ha : op.adv = 0
  · rw [sequence_handler ha] at h; cases h
  · rw [sequence_loop ha] at h
    split at h
    · cases h
    · next hgt => cases h; exact ⟨rfl, by omega⟩

/-- All that `exec` can be: a handler's fault, the advance's fault, or a commit. -/
theorem exec_inv {i : Instr} {s t : State} (h : exec i s = .next t) :
    (∃ k, handlerOf i s = .error k ∧ t = takeFault k s) ∨
      (∃ u, handlerOf i s = .ok u ∧ 255 < s.pc.toNat + i.opcode.adv ∧ i.opcode.adv ≠ 0 ∧ t = takeFault .addressing s) ∨
      (∃ u v, handlerOf i s = .ok u ∧ sequence i.opcode s.pc u = .ok v ∧ t = v.countCycle) := by
  rw [exec_eq_runHandler] at h
  cases hh : handlerOf i s with
  | error k => rw [hh, runHandler_error] at h; exact .inl ⟨k, rfl, by simpa using h.symm⟩
  | ok u =>
    rw [hh, runHandler_ok] at h
    cases hq : sequence i.opcode s.pc u with
    | error k =>
      rw [hq] at h
      obtain ⟨rfl, hgt⟩ := sequence_error hq
      refine .inr (.inl ⟨u, rfl, hgt, ?_, by simpa using h.symm⟩)
      intro ha; rw [sequence_handler ha] at hq; cases hq
    | ok v => rw [hq] at h; exact .inr (.inr ⟨u, v, rfl, hq, by simpa using h.symm⟩)

/-! ### What every handler keeps -/

/-- No handler touches the record, the count or the limit; only HLT's touches the run state. -/
theorem handlerOf_keeps {i : Instr} {s u : State} (h : handlerOf i s = .ok u) :
    u.fault = s.fault ∧ u.cycles = s.cycles ∧ u.cycleLimit = s.cycleLimit ∧
      (i ≠ .hlt → u.status = s.status) ∧ (i = .hlt → u.status = .halted) := by
  have hw : i.wellFormed = true := by
    cases hi : i.wellFormed with
    | true => rfl
    | false => rw [handlerOf_badIndex s hi] at h; cases h
  cases i <;> simp only [Instr.wellFormed, Instr.registerBytes, List.all_cons, List.all_nil, Bool.and_true,
    Bool.and_eq_true, namesRegister_iff] at hw
  case hlt => rw [handlerOf, hltHandler_eq] at h; split at h <;> cases h; simp
  case ret => rw [handlerOf, retHandler_eq] at h; split at h <;> cases h; simp
  case push => obtain ⟨r, rfl⟩ := hw; rw [handlerOf, pushHandler_byte, stackPush_eq] at h; split at h <;> cases h; simp
  case pop => obtain ⟨r, rfl⟩ := hw; rw [handlerOf, popHandler_byte] at h; split at h <;> cases h; simp
  case call => obtain ⟨r, rfl⟩ := hw; rw [handlerOf, callHandler_byte] at h; split at h <;> cases h; simp
  case jeq => obtain ⟨r, rfl⟩ := hw; rw [handlerOf, branchHandler_byte] at h; (repeat' split at h) <;> cases h <;> simp
  case jne => obtain ⟨r, rfl⟩ := hw; rw [handlerOf, branchHandler_byte] at h; (repeat' split at h) <;> cases h <;> simp
  case div =>
    obtain ⟨⟨ra, rfl⟩, rb, rfl⟩ := hw; rw [handlerOf, divHandler_byte] at h; split at h <;> cases h; simp
  case prn => obtain ⟨r, rfl⟩ := hw; rw [handlerOf, prnHandler_byte] at h; cases h; simp
  case jmp => obtain ⟨r, rfl⟩ := hw; rw [handlerOf, jmpHandler_byte] at h; cases h; simp
  case inc => obtain ⟨r, rfl⟩ := hw; rw [handlerOf, unaryHandler_byte] at h; cases h; simp
  case dec => obtain ⟨r, rfl⟩ := hw; rw [handlerOf, unaryHandler_byte] at h; cases h; simp
  case ldi => obtain ⟨r, rfl⟩ := hw; rw [handlerOf, ldiHandler_byte] at h; cases h; simp
  case add => obtain ⟨⟨ra, rfl⟩, rb, rfl⟩ := hw; rw [handlerOf, binaryHandler_byte] at h; cases h; simp
  case sub => obtain ⟨⟨ra, rfl⟩, rb, rfl⟩ := hw; rw [handlerOf, binaryHandler_byte] at h; cases h; simp
  case mul => obtain ⟨⟨ra, rfl⟩, rb, rfl⟩ := hw; rw [handlerOf, binaryHandler_byte] at h; cases h; simp
  case cmp => obtain ⟨⟨ra, rfl⟩, rb, rfl⟩ := hw; rw [handlerOf, cmpHandler_byte] at h; cases h; simp

/-- Sequencing touches PC alone. -/
theorem sequence_ok {op : Opcode} {pc : Byte} {u v : State} (h : sequence op pc u = .ok v) :
    ∃ p : Byte, v = { u with pc := p } ∧ (op.adv = 0 → p = u.pc) ∧ (op.adv ≠ 0 → p.toNat = pc.toNat + op.adv) := by
  by_cases ha : op.adv = 0
  · rw [sequence_handler ha] at h; cases h; exact ⟨_, rfl, by simp, by simp [ha]⟩
  · rw [sequence_loop ha] at h
    split at h
    · next hle =>
      cases h
      refine ⟨_, rfl, by simp [ha], fun _ => ?_⟩
      simp only [BitVec.toNat_add, BitVec.toNat_ofNat]; omega
    · cases h

/-- An `exec` that answers `t` either took a fault of one of the three kinds an instruction raises, or committed: the count
rose, the record stayed, and only HLT moved the run state. -/
theorem exec_fault_or_commit {i : Instr} {s t : State} (h : exec i s = .next t) :
    (∃ k, k ≠ .cycleLimitExceeded ∧ k ≠ .illegalInstruction ∧ t = takeFault k s) ∨
      (t.fault = s.fault ∧ t.cycles = s.cycles + 1 ∧ t.cycleLimit = s.cycleLimit ∧
        (i ≠ .hlt → t.status = s.status) ∧ (i = .hlt → t.status = .halted)) := by
  rcases exec_inv h with ⟨k, hk, rfl⟩ | ⟨u, hu, -, -, rfl⟩ | ⟨u, v, hu, hv, rfl⟩
  · rcases handlerOf_error hk with ⟨rfl, -⟩ | ⟨rfl, -⟩ | ⟨rfl, -⟩ <;> exact .inl ⟨_, by decide, by decide, rfl⟩
  · exact .inl ⟨_, by decide, by decide, rfl⟩
  · obtain ⟨hf, hc, hl, hs, hh⟩ := handlerOf_keeps hu
    obtain ⟨p, rfl, -, -⟩ := sequence_ok hv
    exact .inr ⟨hf, congrArg (· + 1) hc, hl, hs, hh⟩

/-! ### `step` -/

theorem step_halted {s : State} (h : s.status = .halted) : step s = .fault .halted := by simp [step, loopStep, h]

theorem step_guard {s : State} (h : s.status = .running) (hg : guardFires s = true) :
    step s = .next (takeFault .cycleLimitExceeded s) := by simp [step, loopStep, h, hg]

theorem step_fetch_error {s : State} {k : FaultKind} (h : s.status = .running) (hg : guardFires s = false)
    (hf : fetch s = .error k) : step s = .next (takeFault k s) := by simp [step, loopStep, h, hg, hf]

theorem step_fetch_ok {s : State} {i : Instr} (h : s.status = .running) (hg : guardFires s = false)
    (hf : fetch s = .ok i) : step s = exec i s := by simp [step, loopStep, h, hg, hf]

/-- All that a step can be. -/
theorem step_cases {s t : State} (h : step s = .next t) :
    s.status = .running ∧
      ((guardFires s = true ∧ t = takeFault .cycleLimitExceeded s) ∨
       (guardFires s = false ∧ ∃ k, fetch s = .error k ∧ t = takeFault k s) ∨
       (guardFires s = false ∧ ∃ i, fetch s = .ok i ∧ exec i s = .next t)) := by
  cases hs : s.status with
  | halted => rw [step_halted hs] at h; cases h
  | running =>
    refine ⟨rfl, ?_⟩
    cases hg : guardFires s with
    | true => rw [step_guard hs hg] at h; exact .inl ⟨rfl, by simpa using h.symm⟩
    | false =>
      cases hf : fetch s with
      | error k => rw [step_fetch_error hs hg hf] at h; exact .inr (.inl ⟨rfl, k, rfl, by simpa using h.symm⟩)
      | ok i => rw [step_fetch_ok hs hg hf] at h; exact .inr (.inr ⟨rfl, i, rfl, h⟩)

end Sys2Proof.Machine
end

