-- ==== Sys2Proof/Laws/PerInstr.lean ====
section
/-! SUPPORT. Statements made per instruction. -/

namespace Sys2Proof.Laws.EncodingShape

/-- The encoding of an instruction begins with its opcode byte and has length L = 1 + N (30_encoding.md R70, R71), and the
opcode byte looks up to the same dispatch-table entry. -/
def Statement (i : Instr) : Prop :=
  (encode i).length = 1 + i.opcode.operandCount ∧ (encode i).head? = some i.opcode.byte ∧
    Opcode.ofByte i.opcode.byte = some i.opcode

theorem hlt : Statement .hlt := ⟨rfl, rfl, rfl⟩
theorem ret : Statement .ret := ⟨rfl, rfl, rfl⟩
theorem push (a : Byte) : Statement (.push a) := ⟨rfl, rfl, rfl⟩
theorem pop (a : Byte) : Statement (.pop a) := ⟨rfl, rfl, rfl⟩
theorem prn (a : Byte) : Statement (.prn a) := ⟨rfl, rfl, rfl⟩
theorem call (a : Byte) : Statement (.call a) := ⟨rfl, rfl, rfl⟩
theorem jmp (a : Byte) : Statement (.jmp a) := ⟨rfl, rfl, rfl⟩
theorem jeq (a : Byte) : Statement (.jeq a) := ⟨rfl, rfl, rfl⟩
theorem jne (a : Byte) : Statement (.jne a) := ⟨rfl, rfl, rfl⟩
theorem inc (a : Byte) : Statement (.inc a) := ⟨rfl, rfl, rfl⟩
theorem dec (a : Byte) : Statement (.dec a) := ⟨rfl, rfl, rfl⟩
theorem ldi (a imm : Byte) : Statement (.ldi a imm) := ⟨rfl, rfl, rfl⟩
theorem add (a b : Byte) : Statement (.add a b) := ⟨rfl, rfl, rfl⟩
theorem sub (a b : Byte) : Statement (.sub a b) := ⟨rfl, rfl, rfl⟩
theorem mul (a b : Byte) : Statement (.mul a b) := ⟨rfl, rfl, rfl⟩
theorem div (a b : Byte) : Statement (.div a b) := ⟨rfl, rfl, rfl⟩
theorem cmp (a b : Byte) : Statement (.cmp a b) := ⟨rfl, rfl, rfl⟩

end Sys2Proof.Laws.EncodingShape
end

