-- ==== Sys2Proof/Laws/Step.lean ====
section
/-! SUPPORT. The terms of Safety.lean against the machine, and what a commit and a step are. -/

namespace Sys2Proof.Machine

/-! ### The spec's tables against the dispatch table -/

/-- The bytes written out in `tableOpcodes` are the dispatch table's keys. -/
theorem mem_tableOpcodes_iff (b : Byte) : b ∈ tableOpcodes ↔ Opcode.ofByte b ≠ none := by
  have : b ∈ tableOpcodes ↔ ∃ o : Opcode, b = o.byte := by
    constructor
    · intro h
      simp only [tableOpcodes, List.mem_cons, List.not_mem_nil, or_false] at h
      rcases h with h | h | h | h | h | h | h | h | h | h | h | h | h | h | h | h | h
      exacts [⟨.hlt, h⟩, ⟨.ret, h⟩, ⟨.push, h⟩, ⟨.pop, h⟩, ⟨.prn, h⟩, ⟨.call, h⟩, ⟨.jmp, h⟩, ⟨.jeq, h⟩, ⟨.jne, h⟩,
        ⟨.inc, h⟩, ⟨.dec, h⟩, ⟨.ldi, h⟩, ⟨.add, h⟩, ⟨.sub, h⟩, ⟨.mul, h⟩, ⟨.div, h⟩, ⟨.cmp, h⟩]
    · rintro ⟨o, rfl⟩; cases o <;> decide
  rw [this, Option.ne_none_iff_exists']
  simp only [ofByte_eq_some_iff]

/-- The N column written out is the dispatch table's. -/
theorem tableN_byte (o : Opcode) : tableN o.byte = o.operandCount := by cases o <;> rfl

/-- The ADV column written out is the dispatch table's. -/
theorem tableAdv_byte (o : Opcode) : tableAdv o.byte = o.adv := by cases o <;> rfl

/-- No two opcodes share a byte. -/
theorem byte_injective (o o' : Opcode) : o.byte = o'.byte ↔ o = o' := by
  constructor
  · intro h; have := ofByte_byte o; rw [h, ofByte_byte] at this; exact (Option.some.inj this).symm
  · rintro rfl; rfl

/-- The value written out for a register operand byte is that register's. -/
theorem operandValue_byte (s : State) (r : Reg) : s.operandValue r.byte = s.getReg r := by cases r <;> rfl

/-- A bad index at PC is an instruction at PC that is not well formed. -/
theorem badIndex_iff (s : State) (o : Opcode) (ho : s.opcodeByte = o.byte) :
    s.badIndex ↔ (instrOf o (s.operandByte 1) (s.operandByte 2)).wellFormed = false := by
  unfold State.badIndex
  rw [ho, tableN_byte]
  cases o <;> simp [Instr.wellFormed, instrOf, Instr.registerBytes, namesRegister, Opcode.operandCount,
    tableTwoRegister, Opcode.byte]
  all_goals omega

/-! ### Commits -/

/-- A fault taken is no commit. -/
theorem not_committed_takeFault {s : State} {k} : ¬ Committed s (takeFault k s) := by simp [Committed]

/-- SP after a push. -/
theorem sp_sub_toNat {s : State} (h : s.sp.toNat ≠ 0) : (s.sp - 1#8).toNat = s.sp.toNat - 1 := by
  have := s.sp.isLt
  rw [BitVec.toNat_sub]; norm_num; omega

/-- SP after a pop. -/
theorem sp_add_toNat {s : State} (h : s.sp.toNat ≠ 255) : (s.sp + 1#8).toNat = s.sp.toNat + 1 := by
  have := s.sp.isLt
  rw [BitVec.toNat_add]; norm_num; omega

/-- What a commit is: the handler's staged state, with PC sequenced and the count raised. -/
theorem exec_committed {i : Instr} {s t : State} (h : exec i s = .next t) (hc : Committed s t) :
    i.wellFormed = true ∧ ∃ u p, handlerOf i s = .ok u ∧ t = { u with pc := p, cycles := u.cycles + 1 } ∧
      (i.opcode.adv = 0 → p = u.pc) ∧ (i.opcode.adv ≠ 0 → p.toNat = s.pc.toNat + i.opcode.adv) := by
  rcases exec_inv h with ⟨k, hk, rfl⟩ | ⟨u, hu, -, -, rfl⟩ | ⟨u, v, hu, hv, rfl⟩
  · exact absurd hc not_committed_takeFault
  · exact absurd hc not_committed_takeFault
  · obtain ⟨p, rfl, h1, h2⟩ := sequence_ok hv
    refine ⟨?_, u, p, hu, rfl, h1, h2⟩
    cases hi : i.wellFormed with
    | true => rfl
    | false => rw [handlerOf_badIndex s hi] at hu; cases hu

/-- What an instruction can do to memory, FL, the output and SP, whether it commits or faults. -/
structure ExecEffect (i : Instr) (s t : State) : Prop where
  mem_same : i.opcode ≠ .push → i.opcode ≠ .call → t.mem = s.mem
  mem_wf : s.mem.wf = true → t.mem.wf = true
  mem_other : ∀ a : Byte, asAddress (val s.sp - 1) = .ok a → ∀ c, c ≠ a.toNat → t.mem.read c = s.mem.read c
  mem_past : ∀ k, asAddress (val s.sp - 1) = .error k → t.mem = s.mem
  fl_same : i.opcode ≠ .cmp → t.fl = s.fl
  fl_set : i.opcode = .cmp → Committed s t → t.fl ≠ .unset
  out_same : i.opcode ≠ .prn → t.out = s.out
  sp_same : i.opcode ∉ [.push, .pop, .call, .ret] → t.sp = s.sp
  sp_push : i.opcode ∈ [.push, .call] → Committed s t → t.sp.toNat + 1 = s.sp.toNat
  sp_pop : i.opcode ∈ [.pop, .ret] → Committed s t → t.sp.toNat = s.sp.toNat + 1

/-- The effect of an instruction that touches no memory and no SP. -/
theorem ExecEffect.of_same {i : Instr} {s t : State} (hm : t.mem = s.mem) (hs : t.sp = s.sp)
    (ho : i.opcode ∉ [.push, .pop, .call, .ret]) (hf : i.opcode ≠ .cmp → t.fl = s.fl)
    (hc : i.opcode = .cmp → t.fl ≠ .unset) (hp : i.opcode ≠ .prn → t.out = s.out) : ExecEffect i s t where
  mem_same _ _ := hm
  mem_wf h := by rw [hm]; exact h
  mem_other _ _ c _ := by rw [hm]
  mem_past _ _ := hm
  fl_same := hf
  fl_set h _ := hc h
  out_same := hp
  sp_same _ := hs
  sp_push h _ := absurd h (by revert ho; cases i.opcode <;> decide)
  sp_pop h _ := absurd h (by revert ho; cases i.opcode <;> decide)

theorem ExecEffect.of_fault (i : Instr) (k : FaultKind) (s : State) : ExecEffect i s (takeFault k s) where
  mem_same _ _ := rfl
  mem_wf := id
  mem_other _ _ _ _ := rfl
  mem_past _ _ := rfl
  fl_same _ := rfl
  fl_set _ h := absurd h not_committed_takeFault
  out_same _ := rfl
  sp_same _ := rfl
  sp_push _ h := absurd h not_committed_takeFault
  sp_pop _ h := absurd h not_committed_takeFault

theorem ExecEffect.of_push {i : Instr} {s t : State} {v : Byte} (hi : i.opcode ∈ [.push, .call])
    (hs : s.sp.toNat ≠ 0) (hm : t.mem = s.mem.write (s.sp.toNat - 1) v) (hsp : t.sp = s.sp - 1#8) (hf : t.fl = s.fl)
    (ho : t.out = s.out) : ExecEffect i s t where
  mem_same h1 h2 := by simp only [List.mem_cons, List.not_mem_nil, or_false] at hi; exact absurd hi (by simp [h1, h2])
  mem_wf h := by rw [hm]; exact write_wf h (by have := s.sp.isLt; omega) _
  mem_other a ha c hc := by
    rw [asAddress_sub_one, if_neg hs] at ha
    cases ha
    rw [sp_sub_toNat hs] at hc
    rw [hm]; exact read_write_other _ _ _ _ hc
  mem_past k hk := by rw [asAddress_sub_one, if_neg hs] at hk; cases hk
  fl_same _ := hf
  fl_set h := by rw [h] at hi; exact absurd hi (by decide)
  out_same _ := ho
  sp_same h := absurd hi (by revert h; cases i.opcode <;> decide)
  sp_push _ _ := by rw [hsp, sp_sub_toNat hs]; omega
  sp_pop h := absurd h (by revert hi; cases i.opcode <;> decide)

theorem ExecEffect.of_pop {i : Instr} {s t : State} (hi : i.opcode ∈ [.pop, .ret]) (hs : s.sp.toNat ≠ 255)
    (hm : t.mem = s.mem) (hsp : t.sp = s.sp + 1#8) (hf : t.fl = s.fl) (ho : t.out = s.out) : ExecEffect i s t where
  mem_same _ _ := hm
  mem_wf h := by rw [hm]; exact h
  mem_other _ _ c _ := by rw [hm]
  mem_past _ _ := hm
  fl_same _ := hf
  fl_set h := by rw [h] at hi; exact absurd hi (by decide)
  out_same _ := ho
  sp_same h := absurd hi (by revert h; cases i.opcode <;> decide)
  sp_push h := absurd h (by revert hi; cases i.opcode <;> decide)
  sp_pop _ _ := by rw [hsp, sp_add_toNat hs]

theorem exec_effect {i : Instr} {s t : State} (h : exec i s = .next t) : ExecEffect i s t := by
  rcases exec_fault_or_commit h with ⟨k, -, -, rfl⟩ | hk
  · exact .of_fault i k s
  obtain ⟨hw, u, p, hu, rfl, -, -⟩ := exec_committed h hk.2.1
  have hl := s.sp.isLt
  cases i <;> simp only [Instr.wellFormed, Instr.registerBytes, List.all_cons, List.all_nil, Bool.and_true,
    Bool.and_eq_true, namesRegister_iff] at hw
  case push =>
    obtain ⟨r, rfl⟩ := hw; rw [handlerOf, pushHandler_byte, stackPush_eq] at hu; split at hu <;> cases hu
    exact .of_push (by simp [Instr.opcode]) (by assumption) rfl rfl rfl rfl
  case call =>
    obtain ⟨r, rfl⟩ := hw; rw [handlerOf, callHandler_byte] at hu; split at hu <;> cases hu
    exact .of_push (by simp [Instr.opcode]) (by omega) rfl rfl rfl rfl
  case pop =>
    obtain ⟨r, rfl⟩ := hw; rw [handlerOf, popHandler_byte] at hu; split at hu <;> cases hu
    exact .of_pop (by simp [Instr.opcode]) (by assumption) rfl rfl rfl rfl
  case ret =>
    rw [handlerOf, retHandler_eq] at hu; split at hu <;> cases hu
    exact .of_pop (by simp [Instr.opcode]) (by assumption) rfl rfl rfl rfl
  case cmp =>
    obtain ⟨⟨ra, rfl⟩, rb, rfl⟩ := hw; rw [handlerOf, cmpHandler_byte] at hu; cases hu
    exact .of_same rfl rfl (by simp [Instr.opcode]) (fun h => absurd rfl h)
      (fun _ => by simp only [setFL_fl, compareFlag]; (repeat' split) <;> decide) (fun _ => rfl)
  case prn =>
    obtain ⟨r, rfl⟩ := hw; rw [handlerOf, prnHandler_byte] at hu; cases hu
    exact .of_same rfl rfl (by simp [Instr.opcode]) (fun _ => rfl) (fun h => by cases h) (fun h => absurd rfl h)
  case hlt =>
    rw [handlerOf, hltHandler_eq] at hu; split at hu <;> cases hu
    exact .of_same rfl rfl (by simp [Instr.opcode]) (fun _ => rfl) (fun h => by cases h) (fun _ => rfl)
  case div =>
    obtain ⟨⟨ra, rfl⟩, rb, rfl⟩ := hw; rw [handlerOf, divHandler_byte] at hu; split at hu <;> cases hu
    exact .of_same rfl rfl (by simp [Instr.opcode]) (fun _ => rfl) (fun h => by cases h) (fun _ => rfl)
  case jeq | jne =>
    obtain ⟨r, rfl⟩ := hw; rw [handlerOf, branchHandler_byte] at hu
    (repeat' split at hu) <;> cases hu <;>
      exact .of_same rfl rfl (by simp [Instr.opcode]) (fun _ => rfl) (fun h => by cases h) (fun _ => rfl)
  case jmp | inc | dec | ldi =>
    obtain ⟨r, rfl⟩ := hw
    simp only [handlerOf, jmpHandler_byte, unaryHandler_byte, ldiHandler_byte] at hu; cases hu
    exact .of_same rfl rfl (by simp [Instr.opcode]) (fun _ => rfl) (fun h => by cases h) (fun _ => rfl)
  case add | sub | mul =>
    obtain ⟨⟨ra, rfl⟩, rb, rfl⟩ := hw; rw [handlerOf, binaryHandler_byte] at hu; cases hu
    exact .of_same rfl rfl (by simp [Instr.opcode]) (fun _ => rfl) (fun h => by cases h) (fun _ => rfl)

/-! ### Steps -/

/-- A step is a fault taken, or an instruction that was fetched and committed. -/
theorem step_fault_or_commit {s t : State} (h : step s = .next t) :
    (∃ k, t = takeFault k s) ∨
      (guardFires s = false ∧ ∃ i, fetch s = .ok i ∧ exec i s = .next t ∧
        t.fault = s.fault ∧ t.cycles = s.cycles + 1 ∧ t.cycleLimit = s.cycleLimit ∧
        (i ≠ .hlt → t.status = s.status) ∧ (i = .hlt → t.status = .halted)) := by
  obtain ⟨hr, ⟨hg, rfl⟩ | ⟨hg, k, hk, rfl⟩ | ⟨hg, i, hi, he⟩⟩ := step_cases h
  · exact .inl ⟨_, rfl⟩
  · exact .inl ⟨_, rfl⟩
  · rcases exec_fault_or_commit he with ⟨k, -, -, rfl⟩ | h
    · exact .inl ⟨_, rfl⟩
    · exact .inr ⟨hg, i, hi, he, h⟩

/-- A fetch reads memory and PC and nothing else. -/
theorem fetch_congr {s t : State} (hm : t.mem = s.mem) (hp : t.pc = s.pc) : fetch t = fetch s := by
  rw [fetch_eq, fetch_eq, hm, hp]

/-- The opcode byte at PC rules an opcode out of what was fetched. -/
theorem fetch_opcode_ne {i : Instr} {s : State} {b : Byte} (o : Opcode) (hb : b = o.byte) (hi : fetch s = .ok i)
    (h : s.opcodeByte ≠ b) : i.opcode ≠ o := by
  rintro rfl; exact h ((fetch_ok_opcode hi).trans hb.symm)

/-- The opcode byte at PC fixes the opcode of what was fetched. -/
theorem fetch_opcode_eq {i : Instr} {s : State} {b : Byte} (o : Opcode) (hb : b = o.byte) (hi : fetch s = .ok i)
    (h : s.opcodeByte = b) : i.opcode = o := by
  have := (fetch_ok_opcode hi)
  rw [← byte_injective, ← hb, ← h]; exact this.symm

end Sys2Proof.Machine
end

