-- ==== Sys2Proof/Tests/Slice0.lean ====
section
/-! SUPPORT. The model's own tests. Every expected result is the spec's: a vector of 95_test_vectors.md (named in the
docstring), an encoding table of 30_encoding.md, or a rule's own example. The witnesses at the end show a concrete state
that meets the hypotheses of each statement. -/

namespace Sys2Proof.Tests

open Sys2Proof.Machine

/-! ### Helpers -/

/-- `s` with `bytes` at address `pc`, and PC there. -/
def start (pc : Byte) (bytes : List Byte) (s : State) : State := { s with pc := pc, mem := s.mem.writeBytes pc.toNat bytes }

/-- Reset state with R0..R4 as given. -/
def withRegs (a b c d e : Byte) : State := { State.reset with regs := ⟨a, b, c, d, e⟩ }

/-- Reset state with `v` at `a` and SP there. -/
def withTop (a v : Byte) : State := { State.reset with sp := a, mem := Memory.writeBytes [] a.toNat [v] }

/-- One field of the state after one step. -/
def after {α : Type} (s : State) (f : State → α) : Option α :=
  match step s with
  | .next t => some (f t)
  | .fault _ => none
  | .refused _ => none

/-- The step is fault `k` at PC, with nothing else changed. -/
def stops (s : State) (k : FaultKind) : Bool := decide (after s id = some (s.stoppedBy k))

/-! ### Well-formedness: one ill-formed term for each check -/

theorem test_wf_refuses_first_operand :
    (Instr.push 5#8).wellFormed = false ∧ (Instr.ldi 7#8 0#8).wellFormed = false ∧ (Instr.add 255#8 0#8).wellFormed = false := by
  decide

theorem test_wf_refuses_second_operand :
    (Instr.add 0#8 5#8).wellFormed = false ∧ (Instr.cmp 0#8 6#8).wellFormed = false ∧ (Instr.div 4#8 255#8).wellFormed = false := by
  decide

theorem test_wf_accepts :
    (Instr.ldi 4#8 255#8).wellFormed = true ∧ (Instr.cmp 4#8 0#8).wellFormed = true ∧ Instr.ret.wellFormed = true := by decide

/-! ### Decoding: a word of each constructor, written out bit by bit from 30_encoding.md R71 and R74 -/

theorem test_decode_hlt : decode [0b00000001#8] = .ok (.hlt, []) := by decide
theorem test_decode_ret : decode [0b00010001#8] = .ok (.ret, []) := by decide
theorem test_decode_push : decode [0b01000101#8, 0b00000011#8] = .ok (.push 3#8, []) := by decide
theorem test_decode_pop : decode [0b01000110#8, 0b00000001#8] = .ok (.pop 1#8, []) := by decide
theorem test_decode_prn : decode [0b01000111#8, 0b00000100#8] = .ok (.prn 4#8, []) := by decide
theorem test_decode_call : decode [0b01010000#8, 0b00000001#8] = .ok (.call 1#8, []) := by decide
theorem test_decode_jmp : decode [0b01010100#8, 0b00000010#8] = .ok (.jmp 2#8, []) := by decide
theorem test_decode_jeq : decode [0b01010101#8, 0b00000011#8] = .ok (.jeq 3#8, []) := by decide
theorem test_decode_jne : decode [0b01010110#8, 0b00000010#8] = .ok (.jne 2#8, []) := by decide
theorem test_decode_inc : decode [0b01100101#8, 0b00000100#8] = .ok (.inc 4#8, []) := by decide
theorem test_decode_dec : decode [0b01100110#8, 0b00000000#8] = .ok (.dec 0#8, []) := by decide
theorem test_decode_ldi : decode [0b10000010#8, 0b00000011#8, 0b11111111#8] = .ok (.ldi 3#8 255#8, []) := by decide
theorem test_decode_add : decode [0b10100000#8, 0b00000000#8, 0b00000001#8] = .ok (.add 0#8 1#8, []) := by decide
theorem test_decode_sub : decode [0b10100001#8, 0b00000010#8, 0b00000011#8] = .ok (.sub 2#8 3#8, []) := by decide
theorem test_decode_mul : decode [0b10100010#8, 0b00000000#8, 0b00000001#8] = .ok (.mul 0#8 1#8, []) := by decide
theorem test_decode_div : decode [0b10100011#8, 0b00000001#8, 0b00000000#8] = .ok (.div 1#8 0#8, []) := by decide
theorem test_decode_cmp : decode [0b10100111#8, 0b00000000#8, 0b00000001#8] = .ok (.cmp 0#8 1#8, []) := by decide

/-- 30_encoding.md R76: 0x00, and the LS-8's MOD and NOP and LD bytes, are illegal whatever follows. -/
theorem test_decode_illegal :
    decode [0x00#8] = .error (.illegalOpcode 0x00#8) ∧ decode [0xA4#8, 0#8, 1#8] = .error (.illegalOpcode 0xA4#8) ∧
      decode [0x83#8, 0#8, 1#8] = .error (.illegalOpcode 0x83#8) := by decide

/-- An operand byte that is not there is named; an operand byte that names no register is not refused (R77). -/
theorem test_decode_operand_bytes :
    decode [0xA0#8, 0x09#8] = .error (.missingByte 2) ∧ decode [0x45#8] = .error (.missingByte 1) ∧
      decode [0x45#8, 0xFF#8, 0x01#8] = .ok (.push 0xFF#8, [0x01#8]) := by decide

/-- The opcode table's numbering: the first byte is the low byte of the word. -/
theorem test_decodeTableWord :
    decodeTableWord 24 0x080082 = some (.ldi 0#8 8#8) ∧ decodeTableWord 8 0x82 = some (.ldi 0#8 0#8) ∧
      decodeTableWord 8 0x00 = none := by decide

/-- A word placed with `withFetchWord` is what the next step runs. -/
theorem test_withFetchWord :
    after (State.reset.withFetchWord 24 0x080082) (fun t => (t.regs.r0, t.pc)) = some (8#8, 3#8) ∧
      after (State.reset.withFetchWord 8 0x01) (fun t => (t.status, t.pc)) = some (.halted, 1#8) := by decide

/-! ### One step of each instruction (95_test_vectors.md, L2) -/

/-- V.ADD.1. -/
theorem test_add_wraps :
    after (start 0#8 [0xA0#8, 0#8, 1#8] (withRegs 200#8 100#8 0#8 0#8 0#8)) (fun t => (t.regs.r0, t.regs.r1, t.pc)) =
      some (44#8, 100#8, 3#8) := by decide
/-- V.ADD.4 and V.ADD.5. -/
theorem test_add_past_the_end :
    stops (start 253#8 [0xA0#8, 0#8, 1#8] (withRegs 1#8 2#8 0#8 0#8 0#8)) .addressing = true ∧
      stops (start 254#8 [0xA0#8, 9#8] State.reset) .addressing = true := by decide
/-- V.SUB.1. -/
theorem test_sub_wraps :
    after (start 0#8 [0xA1#8, 2#8, 3#8] (withRegs 0#8 0#8 3#8 5#8 0#8)) (fun t => (t.regs.r2, t.regs.r3)) =
      some (254#8, 5#8) := by decide
/-- V.SUB.2. -/
theorem test_sub_same_register :
    after (start 0#8 [0xA1#8, 1#8, 1#8] (withRegs 0#8 77#8 0#8 0#8 0#8)) (fun t => (t.regs.r1, t.fl)) =
      some (0#8, .unset) := by decide
/-- V.MUL.1. -/
theorem test_mul_keeps_low_byte :
    after (start 0#8 [0xA2#8, 0#8, 1#8] (withRegs 16#8 16#8 0#8 0#8 0#8)) (fun t => (t.regs.r0, t.pc)) =
      some (0#8, 3#8) := by decide
/-- V.MUL.2. -/
theorem test_mul_same_register :
    after (start 0#8 [0xA2#8, 3#8, 3#8] (withRegs 0#8 0#8 0#8 255#8 0#8)) (fun t => t.regs.r3) = some 1#8 := by decide
/-- V.DIV.1. -/
theorem test_div_rounds_down :
    after (start 0#8 [0xA3#8, 0#8, 1#8] (withRegs 7#8 2#8 0#8 0#8 0#8)) (fun t => (t.regs.r0, t.regs.r1)) =
      some (3#8, 2#8) := by decide
/-- V.DIV.5 and V.DIV.7. -/
theorem test_div_by_zero :
    stops (start 0#8 [0xA3#8, 0#8, 1#8] (withRegs 10#8 0#8 0#8 0#8 0#8)) .divisionByZero = true ∧
      stops (start 253#8 [0xA3#8, 0#8, 1#8] (withRegs 10#8 0#8 0#8 0#8 0#8)) .divisionByZero = true := by decide
/-- V.INC.2. -/
theorem test_inc_wraps :
    after (start 0#8 [0x65#8, 4#8] (withRegs 0#8 0#8 0#8 0#8 255#8)) (fun t => (t.regs.r4, t.pc)) = some (0#8, 2#8) := by decide
/-- V.INC.3. -/
theorem test_inc_past_the_end : stops (start 254#8 [0x65#8, 0#8] State.reset) .addressing = true := by decide
/-- V.DEC.1. -/
theorem test_dec_wraps : after (start 0#8 [0x66#8, 0#8] State.reset) (fun t => (t.regs.r0, t.pc)) = some (255#8, 2#8) := by decide
/-- V.DEC.2. -/
theorem test_dec_reserved_slot : stops (start 0#8 [0x66#8, 5#8] State.reset) .registerIndex = true := by decide
/-- V.CMP.1 and V.CMP.3. -/
theorem test_cmp_less_and_equal :
    after (start 0#8 [0xA7#8, 0#8, 1#8] (withRegs 3#8 5#8 0#8 0#8 0#8)) (fun t => (t.fl, t.pc)) = some (.lessThan, 3#8) ∧
      after (start 0#8 [0xA7#8, 0#8, 1#8] (withRegs 9#8 9#8 0#8 0#8 0#8)) (fun t => (t.fl, t.pc)) = some (.equal, 3#8) := by decide
/-- V.CMP.2. -/
theorem test_cmp_is_unsigned :
    after (start 0#8 [0xA7#8, 0#8, 1#8] (withRegs 0xFE#8 5#8 0#8 0#8 0#8)) (fun t => t.fl) = some .greaterThan := by decide
/-- V.LDI.1 and V.LDI.3. -/
theorem test_ldi_loads :
    after (start 0#8 [0x82#8, 3#8, 0xFF#8] State.reset) (fun t => (t.regs.r3, t.pc)) = some (255#8, 3#8) ∧
      after (start 252#8 [0x82#8, 0#8, 1#8] State.reset) (fun t => (t.regs.r0, t.pc)) = some (1#8, 255#8) := by decide
/-- V.LDI.2 and V.LDI.4. -/
theorem test_ldi_faults :
    stops (start 0#8 [0x82#8, 5#8, 1#8] State.reset) .registerIndex = true ∧
      stops (start 253#8 [0x82#8, 0#8, 1#8] State.reset) .addressing = true := by decide
/-- V.PRN.1. -/
theorem test_prn_emits :
    after (start 0#8 [0x47#8, 0#8] (withRegs 72#8 0#8 0#8 0#8 0#8)) (fun t => (t.out, t.pc)) = some ([72#8], 2#8) := by decide
/-- V.PRN.2. -/
theorem test_prn_fault_emits_nothing : stops (start 0#8 [0x47#8, 8#8] State.reset) .registerIndex = true := by decide
/-- V.PUSH.1, V.PUSH.3 and V.PUSH.5. -/
theorem test_push_stores :
    after (start 0#8 [0x45#8, 0#8] (withRegs 7#8 0#8 0#8 0#8 0#8)) (fun t => (t.mem.read 0xF3, t.sp, t.pc)) =
        some (7#8, 0xF3#8, 2#8) ∧
      after (start 0x10#8 [0x45#8, 0#8] { withRegs 7#8 0#8 0#8 0#8 0#8 with sp := 1#8 }) (fun t => (t.mem.read 0, t.sp)) =
        some (7#8, 0#8) ∧
      after (start 0x10#8 [0x45#8, 0#8] { withRegs 1#8 0#8 0#8 0#8 0#8 with sp := 0x13#8 }) (fun t => (t.opcodeByte, t.pc)) =
        some (0x01#8, 0x12#8) := by decide
/-- V.PUSH.2 and V.PUSH.4. -/
theorem test_push_faults :
    stops (start 0x10#8 [0x45#8, 0#8] { withRegs 7#8 0#8 0#8 0#8 0#8 with sp := 0#8 }) .addressing = true ∧
      stops (start 0x10#8 [0x45#8, 9#8] { State.reset with sp := 0#8 }) .registerIndex = true := by decide
/-- V.POP.1 and V.POP.3. -/
theorem test_pop_loads :
    after (start 0#8 [0x46#8, 1#8] (withTop 0xF3#8 7#8)) (fun t => (t.regs.r1, t.sp, t.mem.read 0xF3)) =
        some (7#8, 0xF4#8, 7#8) ∧
      after (start 0x10#8 [0x46#8, 1#8] (withTop 0xFE#8 3#8)) (fun t => (t.regs.r1, t.sp, t.pc)) =
        some (3#8, 0xFF#8, 0x12#8) := by decide
/-- V.POP.2. -/
theorem test_pop_at_the_top : stops (start 0x10#8 [0x46#8, 1#8] (withTop 0xFF#8 3#8)) .addressing = true := by decide
/-- V.CALL.1 and V.CALL.2. -/
theorem test_call_pushes_return_address :
    after (start 0x06#8 [0x50#8, 1#8] (withRegs 0#8 0x0B#8 0#8 0#8 0#8)) (fun t => (t.mem.read 0xF3, t.sp, t.pc)) =
        some (0x08#8, 0xF3#8, 0x0B#8) ∧
      after (start 253#8 [0x50#8, 1#8] (withRegs 0#8 0x0B#8 0#8 0#8 0#8)) (fun t => (t.mem.read 0xF3, t.sp, t.pc)) =
        some (0xFF#8, 0xF3#8, 0x0B#8) := by decide
/-- V.CALL.3 and V.CALL.4. -/
theorem test_call_faults :
    stops (start 254#8 [0x50#8, 1#8] (withRegs 0#8 0x0B#8 0#8 0#8 0#8)) .addressing = true ∧
      stops (start 0x10#8 [0x50#8, 1#8] { withRegs 0#8 0x30#8 0#8 0#8 0#8 with sp := 0#8 }) .addressing = true := by decide
/-- V.RET.1. -/
theorem test_ret_pops_pc :
    after (start 0x20#8 [0x11#8] (withTop 0xF3#8 0x08#8)) (fun t => (t.pc, t.sp)) = some (0x08#8, 0xF4#8) := by decide
/-- V.RET.2. -/
theorem test_ret_at_the_top : stops (start 0x20#8 [0x11#8] { State.reset with sp := 0xFF#8 }) .addressing = true := by decide
/-- V.JMP.2. -/
theorem test_jmp_at_254 :
    after (start 254#8 [0x54#8, 0#8] (withRegs 0x40#8 0#8 0#8 0#8 0#8)) (fun t => t.pc) = some 0x40#8 := by decide
/-- V.JMP.3. -/
theorem test_jmp_at_255 : stops (start 255#8 [0x54#8] State.reset) .addressing = true := by decide
/-- V.JEQ.3, V.JEQ.4 and V.JEQ.6. -/
theorem test_jeq_not_taken :
    after (start 0x10#8 [0x55#8, 3#8] (withRegs 0#8 0#8 0#8 0x30#8 0#8)) (fun t => t.pc) = some 0x12#8 ∧
      stops (start 254#8 [0x55#8, 3#8] { withRegs 0#8 0#8 0#8 0x30#8 0#8 with fl := .greaterThan }) .addressing = true ∧
      stops (start 0x10#8 [0x55#8, 7#8] { State.reset with fl := .lessThan }) .registerIndex = true := by decide
/-- V.JEQ.1 and V.JEQ.5. -/
theorem test_jeq_taken :
    after (start 0x10#8 [0x55#8, 3#8] { withRegs 0#8 0#8 0#8 0x30#8 0#8 with fl := .equal }) (fun t => t.pc) = some 0x30#8 ∧
      after (start 254#8 [0x55#8, 3#8] { withRegs 0#8 0#8 0#8 0x30#8 0#8 with fl := .equal }) (fun t => t.pc) =
        some 0x30#8 := by decide
/-- V.JNE.1 and V.JNE.3. -/
theorem test_jne_taken :
    after (start 0x10#8 [0x56#8, 2#8] { withRegs 0#8 0#8 9#8 0#8 0#8 with fl := .greaterThan }) (fun t => t.pc) = some 9#8 ∧
      after (start 0x10#8 [0x56#8, 2#8] (withRegs 0#8 0#8 9#8 0#8 0#8)) (fun t => t.pc) = some 9#8 := by decide
/-- V.JNE.2 and V.JNE.4. -/
theorem test_jne_not_taken :
    after (start 0x10#8 [0x56#8, 2#8] { withRegs 0#8 0#8 9#8 0#8 0#8 with fl := .equal }) (fun t => t.pc) = some 0x12#8 ∧
      stops (start 254#8 [0x56#8, 2#8] { withRegs 0#8 0#8 9#8 0#8 0#8 with fl := .equal }) .addressing = true := by decide
/-- V.HLT.1. -/
theorem test_hlt_halts :
    after (start 11#8 [0x01#8] State.reset) (fun t => (t.pc, t.status, t.fault, t.cycles)) =
      some (12#8, .halted, none, 1) := by decide
/-- V.HLT.2. -/
theorem test_hlt_at_255 : stops (start 255#8 [0x01#8] State.reset) .addressing = true := by decide

/-! ### Decode faults, the guard, the host's ports -/

/-- V.ILL.1, V.ILL.2 and V.ILL.3. -/
theorem test_illegal_instruction :
    stops (start 0#8 [0x00#8] (withRegs 1#8 2#8 3#8 4#8 5#8)) .illegalInstruction = true ∧
      stops (start 0x30#8 [0xA4#8, 0#8, 1#8] (withRegs 1#8 2#8 3#8 4#8 5#8)) .illegalInstruction = true ∧
      stops (start 0x30#8 [0xFF#8] State.reset) .illegalInstruction = true := by decide

/-- V.CYC.1 and V.CYC.2. -/
theorem test_cycle_limit :
    stops (start 0#8 [0x01#8] { State.reset with cycleLimit := some 0 }) .cycleLimitExceeded = true ∧
      after (start 0#8 [0x01#8] { State.reset with cycleLimit := some 1 }) (fun t => (t.pc, t.status, t.fault, t.cycles)) =
        some (1#8, .halted, none, 1) := by decide

/-- A Halted machine has no step (40_execution_loop.md R108). -/
theorem test_halted_has_no_step : after { State.reset with status := .halted } id = none := by decide

/-- 70_reset_and_hazards.md R232 on the image of P1: bytes at 0 and 11, and 0 past the image. -/
theorem test_boot_p1 :
    (match boot none [0x82#8, 0x00#8, 0x08#8, 0x82#8, 0x01#8, 0x09#8, 0xA2#8, 0x00#8, 0x01#8, 0x47#8, 0x00#8, 0x01#8] with
      | .next s => some (s.mem.read 0, s.mem.read 11, s.mem.read 12, s.pc, s.sp, s.mem.wf)
      | _ => none) = some (0x82#8, 0x01#8, 0#8, 0#8, 0xF4#8, true) := by decide

/-- The status port's codes (10_state.md R33) and the report of a run that RegisterIndexFault stopped. -/
theorem test_status_port :
    readStatus (State.reset.stoppedBy .registerIndex) = some ⟨1#1, 5#3, 0#8, 0⟩ ∧
      readStatus { State.reset with status := .halted, cycles := 5 } = some ⟨1#1, 0#3, 0#8, 5⟩ ∧
      (finalReport (State.reset.stoppedBy .registerIndex)).map (fun r => r.fault) = some (some ⟨.registerIndex, 0#8⟩) := by decide

/-- Writing what an untouched cell holds removes the entry, so equal memories are equal lists. -/
theorem test_memory_canonical :
    Memory.write (Memory.write [] 3 7#8) 3 0#8 = [] ∧
      Memory.write (Memory.write [] 9 1#8) 3 7#8 = Memory.write (Memory.write [] 3 7#8) 9 1#8 := by decide

/-- 30_encoding.md R78 on the source's scenario: its text assembles to the image of P1. -/
theorem test_assemble_p1 :
    assemble ("LDI R0,8; LDI R1,9; MUL R0,R1; PRN R0; HLT".toList) =
      some [0x82#8, 0x00#8, 0x08#8, 0x82#8, 0x01#8, 0x09#8, 0xA2#8, 0x00#8, 0x01#8, 0x47#8, 0x00#8, 0x01#8] := by decide

/-- The suggested code of FL (10_state.md R28). -/
theorem test_suggested_code :
    [Flag.unset, .equal, .greaterThan, .lessThan].map Flag.suggestedCode = [0b000#3, 0b001#3, 0b010#3, 0b100#3] := by decide

/-! ### Witnesses: a concrete state that meets the hypotheses of each statement, clause by clause -/

/-- The step of `s` commits, and answers a next state. -/
def commits (s : State) : Bool := decide (after s (fun t => t.cycles) = some (s.cycles + 1))

/-- `exec i s` commits. -/
def runs (i : Instr) (s : State) : Bool :=
  match exec i s with
  | .next t => decide (t.cycles = s.cycles + 1)
  | .fault _ => false
  | .refused _ => false

/-- `exec i s` is fault `k`. -/
def raises (i : Instr) (s : State) (k : FaultKind) : Bool :=
  match exec i s with
  | .next t => decide (t = s.stoppedBy k)
  | .fault _ => false
  | .refused _ => false

theorem step_of_after {s t : State} (h : after s id = some t) : step s = .next t := by
  unfold after at h
  split at h
  · next u hu => rw [hu]; exact congrArg _ (Option.some.inj h)
  · cases h
  · cases h

/-- Reset state with PC as given. -/
def atPC (pc : Byte) : State := { State.reset with pc := pc }

theorem witness_EncodeInvertsDecode : decode [0xA0#8, 0xFF#8, 0x05#8, 0x01#8] = .ok (.add 0xFF#8 5#8, [0x01#8]) := by decide
theorem witness_IllegalBytesAreExactlyTheOthers : (0x00#8 : Byte) ∉ tableOpcodes ∧ (0xFF#8 : Byte) ∉ tableOpcodes ∧ (0xA7#8 : Byte) ∈ tableOpcodes := by
  decide
theorem witness_AssemblyTextReadsBack : (Instr.ldi 4#8 255#8).wellFormed = true ∧ (Instr.cmp 0#8 4#8).wellFormed = true := by decide

theorem witness_StepRunsDecodedInstruction :
    (start 253#8 [0xA0#8, 0#8, 1#8] State.reset).Ready ∧
      decode (codeBytes (start 253#8 [0xA0#8, 0#8, 1#8] State.reset)) = .ok (.add 0#8 1#8, []) := ⟨⟨rfl, rfl⟩, by decide⟩
theorem witness_StepRunsDecodedInstruction_top :
    (start 255#8 [0x11#8] State.reset).Ready ∧ decode (codeBytes (start 255#8 [0x11#8] State.reset)) = .ok (.ret, []) :=
  ⟨⟨rfl, rfl⟩, by decide⟩
theorem witness_RunningMachineAlwaysSteps : State.reset.status = .running := rfl
theorem witness_HaltedStateHasNoStep :
    ∃ s : State, s.status = .halted ∧ StepsWhile (fun _ => True) s s := ⟨State.reset.halt, rfl, .refl _⟩
theorem witness_OnlyHltHaltsCleanly :
    ∃ s t : State, step s = .next t ∧ s.fault = none ∧ t.CleanHalt :=
  let s : State := start 254#8 [0x01#8] State.reset
  ⟨s, { s with pc := 255#8, status := .halted, cycles := 1 }, step_of_after (by decide), rfl, rfl, rfl⟩

theorem witness_NextPcTable_commit :
    ∃ t : State, exec (.add 0#8 1#8) (atPC 252#8) = .next t ∧ Committed (atPC 252#8) t := ⟨_, rfl, rfl⟩
theorem witness_NextPcTable_past :
    (Instr.add 0#8 1#8).wellFormed = true ∧ 255 < nextPc (.add 0#8 1#8) (atPC 253#8) ∧
      255 < nextPc (.inc 0#8) (atPC 254#8) ∧ 255 < nextPc .hlt (atPC 255#8) ∧ 255 < nextPc (.jeq 0#8) (atPC 254#8) := by decide
theorem witness_NextPcTable_target :
    ({ atPC 254#8 with fl := .equal } : State).fl = .equal ∧ (atPC 254#8).fl ≠ .equal := by decide

theorem witness_FaultsArePrecise :
    ∃ t : State, State.reset.fault = none ∧ step State.reset = .next t ∧ t.fault ≠ none := ⟨_, rfl, rfl, by decide⟩
theorem witness_FaultPriority :
    State.reset.status = .running ∧ State.reset.fault = none ∧ FirstFault State.reset (some .illegalInstruction) :=
  ⟨rfl, rfl, .decode rfl (by decide)⟩
/-- 60_exceptions.md R207's three examples, and a step with no fault. -/
theorem witness_FaultPriority_examples :
    stops (start 254#8 [0xA0#8, 9#8] State.reset) .addressing = true ∧
      stops (start 0#8 [0x45#8, 9#8] { State.reset with sp := 0#8 }) .registerIndex = true ∧
      stops (start 253#8 [0xA3#8, 0#8, 1#8] State.reset) .divisionByZero = true ∧
      commits (start 252#8 [0xA0#8, 0#8, 1#8] State.reset) = true := by decide

theorem witness_AddressingFaultCases_fetch :
    (start 254#8 [0xA0#8, 0#8] State.reset).addressingCase ∧ (start 255#8 [0x47#8] State.reset).addressingCase :=
  ⟨.inl (by decide), .inl (by decide)⟩
theorem witness_AddressingFaultCases_advance :
    (start 253#8 [0x82#8] State.reset).addressingCase ∧ (start 254#8 [0x65#8] State.reset).addressingCase :=
  ⟨.inr (.inl (by decide)), .inr (.inr (.inl (by decide)))⟩
theorem witness_AddressingFaultCases_handler :
    (start 255#8 [0x01#8] State.reset).addressingCase ∧ (start 254#8 [0x55#8] State.reset).addressingCase ∧
      (start 254#8 [0x56#8] { State.reset with fl := .equal }).addressingCase ∧
      (start 254#8 [0x50#8] State.reset).addressingCase :=
  ⟨.inr (.inr (.inr (.inl (by decide)))), .inr (.inr (.inr (.inr (.inl (by decide))))),
    .inr (.inr (.inr (.inr (.inr (.inl (by decide)))))), .inr (.inr (.inr (.inr (.inr (.inr (.inl (by decide)))))))⟩
theorem witness_AddressingFaultCases_stack :
    (start 0#8 [0x45#8] { State.reset with sp := 0#8 }).addressingCase ∧
      (start 0#8 [0x11#8] { State.reset with sp := 255#8 }).addressingCase :=
  ⟨.inr (.inr (.inr (.inr (.inr (.inr (.inr (.inl (by decide)))))))),
    .inr (.inr (.inr (.inr (.inr (.inr (.inr (.inr (by decide))))))))⟩
theorem witness_AddressingFaultCases_ready :
    (start 254#8 [0x50#8] State.reset).Ready ∧ (start 254#8 [0x50#8] State.reset).fault = none ∧
      stops (start 254#8 [0x50#8] State.reset) .addressing = true := ⟨⟨rfl, rfl⟩, rfl, by decide⟩
/-- The operand fetch comes first: R207's own example (ADD at 254 with byte 1 = 9), and a DIV whose divisor reads 0. -/
theorem witness_AddressingFaultCases_fetch_first :
    let s := start 254#8 [0xA0#8, 9#8] State.reset
    let d := start 254#8 [0xA3#8, 0#8] State.reset
    s.opcodeByte ∈ tableOpcodes ∧ 255 < s.pc.toNat + tableN s.opcodeByte ∧ s.badIndex ∧ stops s .addressing = true ∧
      d.zeroDivisor ∧ stops d .addressing = true :=
  ⟨by decide, by decide, .inl (by decide), by decide, ⟨by decide, by decide⟩, by decide⟩
/-- A bad index, then a zero divisor, before the advance and the stack: at 253, the last address whose operands are fetched,
and at PUSH with SP = 0 (R207's examples). -/
theorem witness_AddressingFaultCases_kind_before :
    let s := start 253#8 [0xA3#8, 9#8, 1#8] State.reset
    let d := start 253#8 [0xA3#8, 0#8, 1#8] State.reset
    let p := start 0#8 [0x45#8, 9#8] { State.reset with sp := 0#8 }
    s.addressingCase ∧ s.pc.toNat + tableN s.opcodeByte ≤ 255 ∧ s.badIndex ∧ stops s .registerIndex = true ∧
      d.addressingCase ∧ ¬ d.badIndex ∧ d.zeroDivisor ∧ stops d .divisionByZero = true ∧
      p.addressingCase ∧ p.badIndex ∧ stops p .registerIndex = true :=
  ⟨.inr (.inl (by decide)), by decide, .inl (by decide), by decide,
    .inr (.inl (by decide)), by unfold State.badIndex; decide, ⟨by decide, by decide⟩, by decide,
    .inr (.inr (.inr (.inr (.inr (.inr (.inr (.inl (by decide)))))))), .inl (by decide), by decide⟩
/-- Neither: the last clause, on an advance. -/
theorem witness_AddressingFaultCases_neither :
    let s := start 253#8 [0xA0#8, 0#8, 1#8] State.reset
    s.addressingCase ∧ ¬ s.badIndex ∧ ¬ s.zeroDivisor ∧ stops s .addressing = true :=
  ⟨.inr (.inl (by decide)), by unfold State.badIndex; decide, by unfold State.zeroDivisor; decide, by decide⟩

theorem witness_IllegalInstructionFault :
    State.reset.Ready ∧ State.reset.opcodeByte ∉ tableOpcodes ∧ (start 255#8 [0xA8#8] State.reset).opcodeByte ∉ tableOpcodes ∧
      stops State.reset .illegalInstruction = true := ⟨⟨rfl, rfl⟩, by decide, by decide, by decide⟩
theorem witness_DivisionByZeroFault :
    State.reset.getReg .r4 = 0#8 ∧ State.reset.fault = none ∧ raises (.div 4#8 4#8) State.reset .divisionByZero = true := by
  decide
theorem witness_RegisterIndexFault :
    (5#8 : Byte) ∈ (Instr.call 5#8).registerBytes ∧ (255#8 : Byte) ∈ (Instr.mul 4#8 255#8).registerBytes ∧
      State.reset.fault = none ∧ raises (.call 5#8) State.reset .registerIndex = true := by decide

theorem witness_CycleLimitGuard_fires :
    ∃ s t : State, s.status = .running ∧ s.fault = none ∧ s.cycleLimit = some 3 ∧ s.cycles = 3 ∧ step s = .next t ∧
      t.fault = some ⟨.cycleLimitExceeded, s.pc⟩ := ⟨{ State.reset with cycleLimit := some 3, cycles := 3 }, _, rfl, rfl, rfl, rfl, rfl, rfl⟩
theorem witness_CycleLimitGuard_zero :
    ∃ s : State, s.status = .running ∧ s.cycleLimit = some 0 ∧ s.cycles ≤ 0 ∧ Reaches s s :=
  ⟨{ State.reset with cycleLimit := some 0 }, rfl, rfl, le_rfl, .refl _⟩
theorem witness_CycleLimitGuard_last :
    ∃ s : State, s.status = .running ∧ s.fault = none ∧ s.cycleLimit = some (s.cycles + 1) ∧ s.opcodeByte = 0x01#8 ∧
      s.pc.toNat = 254 := ⟨start 254#8 [0x01#8] { State.reset with cycleLimit := some 1 }, rfl, rfl, rfl, by decide, by decide⟩

/-- The boundaries of the two-operand forms: the last address that runs, the first that faults. -/
theorem witness_two_operand_forms :
    ∀ i ∈ [Instr.add 0#8 4#8, .sub 4#8 0#8, .mul 1#8 1#8, .cmp 2#8 3#8, .ldi 4#8 255#8],
      runs i (atPC 252#8) = true ∧ raises i (atPC 253#8) .addressing = true ∧ raises i (atPC 255#8) .addressing = true := by
  decide
/-- A bad byte 1, a bad byte 2, at both ends of 5..255. -/
theorem witness_two_operand_bad_index :
    ∀ i ∈ [Instr.add 5#8 0#8, .add 0#8 255#8, .sub 255#8 0#8, .sub 0#8 5#8, .mul 5#8 5#8, .mul 0#8 5#8, .div 5#8 0#8, .div 0#8 255#8,
        .cmp 6#8 0#8, .cmp 0#8 7#8, .ldi 5#8 0#8, .ldi 255#8 255#8], raises i State.reset .registerIndex = true := by decide
theorem witness_DivRule :
    runs (.div 0#8 1#8) { withRegs 1#8 255#8 0#8 0#8 0#8 with pc := 252#8 } = true ∧
      raises (.div 0#8 1#8) { withRegs 1#8 255#8 0#8 0#8 0#8 with pc := 253#8 } .addressing = true ∧
      raises (.div 0#8 1#8) (atPC 253#8) .divisionByZero = true := by decide
theorem witness_one_operand_forms :
    ∀ i ∈ [Instr.inc 4#8, .dec 0#8, .prn 4#8, .push 0#8, .pop 4#8, .call 4#8, .jeq 0#8],
      runs i (atPC 253#8) = true ∧ raises i (atPC 254#8) .addressing = true ∧ raises i (atPC 255#8) .addressing = true := by
  decide
theorem witness_one_operand_bad_index :
    ∀ i ∈ [Instr.inc 5#8, .dec 255#8, .prn 5#8, .push 255#8, .pop 5#8, .call 5#8, .jmp 255#8, .jeq 5#8, .jne 5#8],
      raises i State.reset .registerIndex = true := by decide

/-- `OperandFetchFaults` for the two-operand opcodes, at its first address. -/
theorem witness_operand_fetch_two :
    ∀ op ∈ [0xA0#8, 0xA1#8, 0xA2#8, 0xA3#8, 0xA7#8, 0x82#8],
      (start 254#8 [op] State.reset).status = .running ∧ guardFires (start 254#8 [op] State.reset) = false ∧
        (start 254#8 [op] State.reset).mem.read 254 = op ∧ 255 < (254#8 : Byte).toNat + 2 := by decide
/-- `OperandFetchFaults` for the one-operand opcodes. -/
theorem witness_operand_fetch_one :
    ∀ op ∈ [0x65#8, 0x66#8, 0x47#8, 0x45#8, 0x46#8, 0x50#8, 0x54#8, 0x55#8, 0x56#8],
      (start 255#8 [op] State.reset).status = .running ∧ guardFires (start 255#8 [op] State.reset) = false ∧
        (start 255#8 [op] State.reset).mem.read 255 = op ∧ 255 < (255#8 : Byte).toNat + 1 := by decide

theorem witness_PushRule_and_CallRule :
    (atPC 253#8).sp.toNat ≠ 0 ∧ (atPC 253#8).mem.wf = true ∧ ({ atPC 253#8 with sp := 1#8 } : State).sp.toNat ≠ 0 ∧
      raises (.push 0#8) { atPC 253#8 with sp := 0#8 } .addressing = true ∧
      raises (.call 0#8) { atPC 253#8 with sp := 0#8 } .addressing = true := by decide
theorem witness_PopRule_and_RetRule :
    runs (.pop 4#8) { atPC 253#8 with sp := 254#8 } = true ∧ runs .ret { atPC 255#8 with sp := 254#8 } = true ∧
      raises (.pop 4#8) { atPC 253#8 with sp := 255#8 } .addressing = true ∧
      raises .ret { atPC 0#8 with sp := 255#8 } .addressing = true := by decide
theorem witness_PushThenPopCopies :
    ∃ t v : State, (atPC 251#8).mem.wf = true ∧ exec (.push 0#8) (atPC 251#8) = .next t ∧ Committed (atPC 251#8) t ∧
      exec (.pop 4#8) t = .next v ∧ Committed t v := ⟨_, _, rfl, rfl, rfl, rfl, rfl⟩
theorem witness_CallThenRetReturns :
    ∃ t u : State, (atPC 253#8).mem.wf = true ∧ exec (.call 0#8) (atPC 253#8) = .next t ∧ Committed (atPC 253#8) t ∧
      u.sp = t.sp ∧ u.mem.read t.sp.toNat = t.mem.read t.sp.toNat := ⟨_, _, rfl, rfl, rfl, rfl, rfl⟩
theorem witness_JmpRule : runs (.jmp 4#8) (atPC 254#8) = true ∧ runs (.jmp 0#8) (atPC 255#8) = true := by decide
theorem witness_BranchRules_taken :
    runs (.jeq 0#8) { atPC 254#8 with fl := .equal } = true ∧ runs (.jne 0#8) (atPC 254#8) = true ∧
      runs (.jne 0#8) { atPC 254#8 with fl := .lessThan } = true ∧ runs (.jne 0#8) { atPC 254#8 with fl := .greaterThan } = true := by
  decide
theorem witness_BranchRules_not_taken :
    runs (.jne 0#8) { atPC 253#8 with fl := .equal } = true ∧ raises (.jne 0#8) { atPC 254#8 with fl := .equal } .addressing = true ∧
      runs (.jeq 0#8) (atPC 253#8) = true ∧ raises (.jeq 0#8) { atPC 254#8 with fl := .lessThan } .addressing = true := by decide
theorem witness_CompareThenBranch :
    ∃ t u v w : State, exec (.cmp 0#8 1#8) (start 0#8 [0xA7#8, 0#8, 1#8, 0x65#8, 2#8] State.reset) = .next t ∧
      Committed (start 0#8 [0xA7#8, 0#8, 1#8, 0x65#8, 2#8] State.reset) t ∧
      StepsWhile (fun w => w.opcodeByte ≠ 0xA7#8) t u ∧ exec (.jeq 4#8) u = .next v ∧ Committed u v ∧
      exec (.jne 4#8) u = .next w ∧ Committed u w :=
  ⟨_, _, _, _, rfl, rfl, .tail (.refl _) (by decide) rfl, rfl, rfl, rfl, rfl⟩
theorem witness_HltRule : runs .hlt (atPC 254#8) = true ∧ raises .hlt (atPC 255#8) .addressing = true := by decide
/-- The hypotheses of its last clause, on the state of `witness_OnlyHltHaltsCleanly`. -/
theorem witness_HltRule_only :
    after (start 254#8 [0x01#8] State.reset) (fun t => (t.status, t.fault, t.cycles)) = some (.halted, none, 1) := by decide

theorem witness_RegisterFormsFrame :
    ∀ i ∈ [Instr.ldi 0#8 1#8, .add 0#8 1#8, .sub 0#8 1#8, .mul 0#8 1#8, .inc 0#8, .dec 0#8], runs i State.reset = true := by decide
theorem witness_RegisterFormsFrame_div : runs (.div 0#8 1#8) (withRegs 1#8 1#8 0#8 0#8 0#8) = true := by decide
theorem witness_CmpPrnFrame : runs (.cmp 0#8 1#8) State.reset = true ∧ runs (.prn 0#8) State.reset = true := by decide
theorem witness_StoringFormsFrame :
    runs (.push 0#8) State.reset = true ∧ runs (.call 0#8) { State.reset with sp := 1#8 } = true ∧
      asAddress (val 1#8 - 1) = .ok 0#8 ∧ asAddress (val 0#8 - 1) = .error .addressing := by decide
theorem witness_PoppingFormsFrame : runs (.pop 0#8) State.reset = true ∧ runs .ret State.reset = true := by decide
theorem witness_JumpHaltFrame :
    runs (.jmp 0#8) State.reset = true ∧ runs (.jeq 0#8) State.reset = true ∧ runs (.jne 0#8) State.reset = true ∧
      runs .hlt State.reset = true := by decide

theorem witness_StepKeepsInvariant :
    ∃ s t : State, s.Inv ∧ step s = .next t ∧ s.status = .running :=
  ⟨start 0x10#8 [0x45#8, 0#8] (withRegs 7#8 0#8 0#8 0#8 0#8), _, ⟨by decide, fun _ => rfl⟩, rfl, rfl⟩
theorem witness_BootLoadsImage :
    ([] : List Byte).length ≤ 256 ∧ (List.replicate 256 (0x01#8 : Byte)).length ≤ 256 ∧
      256 < (List.replicate 257 (0x01#8 : Byte)).length := by
  rw [List.length_replicate, List.length_replicate]; decide
theorem witness_ResetOnlyWhileNotRunning :
    State.reset.status = .running ∧ State.reset.halt.status = .halted ∧ ([] : List Byte).length ≤ 256 := by decide
theorem witness_FlagLifecycle :
    ∃ s t u : State, step s = .next t ∧ s.opcodeByte = 0xA7#8 ∧ Committed s t ∧ step t = .next u ∧ t.opcodeByte ≠ 0xA7#8 ∧
      t.opcodeByte ≠ 0x55#8 ∧ t.opcodeByte ≠ 0x56#8 ∧ t.fl ≠ .unset :=
  ⟨start 0#8 [0xA7#8, 0#8, 1#8, 0x65#8, 2#8] State.reset, _, _, rfl, by decide, rfl, rfl, by decide, by decide, by decide, by decide⟩
theorem witness_CycleCount :
    ∃ s t : State, s.fault = none ∧ step s = .next t ∧ t.fault = none ∧ guardFires { s with cycles := 7 } = guardFires s :=
  ⟨start 0#8 [0x65#8, 2#8] State.reset, _, rfl, rfl, rfl, rfl⟩
theorem witness_CycleCount_limit :
    guardFires { State.reset with cycleLimit := some 9, cycles := 8 } = guardFires { State.reset with cycleLimit := some 9 } ∧
      State.reset.fault = none ∧ stops State.reset .illegalInstruction = true := by decide
theorem witness_OutputSequence :
    ∃ s t : State, exec (.prn 0#8) s = .next t ∧ Committed s t ∧ step s = .next t ∧ t.out ≠ s.out :=
  ⟨start 253#8 [0x47#8, 0#8] State.reset, _, rfl, rfl, rfl, by decide⟩
theorem witness_StackPointerMoves :
    commits (start 0#8 [0x45#8, 0#8] State.reset) = true ∧ commits (start 0#8 [0x50#8, 0#8] State.reset) = true ∧
      commits (start 0#8 [0x46#8, 0#8] State.reset) = true ∧ commits (start 0#8 [0x11#8] State.reset) = true ∧
      commits (start 0#8 [0x65#8, 0#8] State.reset) = true := by decide
theorem witness_OnlyPushAndCallWriteMemory :
    ∃ s t : State, step s = .next t ∧ s.opcodeByte ≠ 0x45#8 ∧ s.opcodeByte ≠ 0x50#8 :=
  ⟨start 0#8 [0x65#8, 0#8] State.reset, _, rfl, by decide, by decide⟩
/-- The storing clause at SP = 1, where cell 0 is written, and at SP = 0, where nothing is. -/
theorem witness_OnlyPushAndCallWriteMemory_store :
    ∀ op ∈ [0x45#8, 0x50#8],
      let s := start 0x10#8 [op, 0#8] { withRegs 7#8 0#8 0#8 0#8 0#8 with sp := 1#8 }
      let z := start 0x10#8 [op, 0#8] { withRegs 7#8 0#8 0#8 0#8 0#8 with sp := 0#8 }
      s.opcodeByte = op ∧ asAddress (val s.sp - 1) = .ok 0#8 ∧ after s (fun t => t.mem.read 0 == s.mem.read 0) = some false ∧
        asAddress (val z.sp - 1) = .error .addressing ∧ stops z .addressing = true := by decide
theorem witness_NextFetchSeesTheStore_push :
    ∃ s t : State, s.mem.wf = true ∧ exec (.push 0#8) s = .next t ∧ Committed s t ∧ t.pc.toNat + 0 = t.sp.toNat :=
  ⟨start 0x10#8 [0x45#8, 0#8] { withRegs 1#8 0#8 0#8 0#8 0#8 with sp := 0x13#8 }, _, by decide, rfl, rfl, by decide⟩
theorem witness_NextFetchSeesTheStore_call :
    ∃ s t : State, s.mem.wf = true ∧ exec (.call 0#8) s = .next t ∧ Committed s t ∧ t.pc.toNat + 2 = t.sp.toNat :=
  ⟨start 0x10#8 [0x50#8, 0#8] { withRegs 0x20#8 0#8 0#8 0#8 0#8 with sp := 0x23#8 }, _, by decide, rfl, rfl, by decide⟩
theorem witness_CanonicalMemoryIsUnique :
    ∃ m n : Memory, m.wf = true ∧ n.wf = true ∧ (∀ a, a < 256 → m.read a = n.read a) ∧ m ≠ [] :=
  ⟨[(0, 1#8), (255, 2#8)], [(0, 1#8), (255, 2#8)], by decide, by decide, fun _ _ => rfl, by decide⟩
theorem witness_CycleLimitBoundsEveryRun :
    ∃ s : State, s.cycleLimit = some 0 ∧ s.status = .running := ⟨{ State.reset with cycleLimit := some 0 }, rfl, rfl⟩
theorem witness_SelfJumpRunsForever :
    ∃ s : State, s.status = .running ∧ s.cycleLimit = none ∧ s.opcodeByte = 0x54#8 ∧ s.pc.toNat ≤ 254 ∧
      s.operandByte 1 = Reg.r4.byte ∧ s.getReg .r4 = s.pc :=
  ⟨start 254#8 [0x54#8, 4#8] (withRegs 0#8 0#8 0#8 0#8 254#8), rfl, rfl, by decide, by decide, by decide, by decide⟩
theorem witness_RunOutcomes_and_FaultRecordIsFinal :
    ∃ t : State, t.Reachable ∧ t.status = .halted ∧ t.fault ≠ none :=
  ⟨State.reset.stoppedBy .illegalInstruction, ⟨none, [], State.reset, rfl, .tail (.refl _) trivial rfl⟩, rfl, by decide⟩
theorem witness_RunOutcomes_clean :
    ∃ s t : State, boot (some 1) [0x01#8] = .next s ∧ step s = .next t ∧ t.Reachable ∧ t.CleanHalt :=
  let s : State := { State.reset with mem := [(0, 0x01#8)], cycleLimit := some 1 }
  let t : State := { s with pc := 0x01#8, status := .halted, cycles := 1 }
  have h : step s = .next t := step_of_after (by decide)
  ⟨s, t, rfl, h, ⟨some 1, [0x01#8], s, rfl, .tail (.refl _) trivial h⟩, rfl, rfl⟩
theorem witness_StatusPortShows : State.reset.status = .running ∧ State.reset.halt.CleanHalt := ⟨rfl, rfl, rfl⟩

end Sys2Proof.Tests
end

section
/-! PROOFS. The state's family: FL, cycles and out (10_state.md R27, R31, R32). -/

namespace Sys2Proof.Machine

/-! ### States that differ in one of FL, cycles and out -/

/-- The fields that the statements of non-interference change before a step. -/
inductive SideField where
  | fl | cycles | out

/-- `s'` is `s`, but for the one field `x`. The index is written as an update of `s`, so that splitting a hypothesis puts
`s` in the place of `s'` wherever another field is read. -/
inductive SameBut (x : SideField) (s : State) : State → Prop where
  | intro (f : Flag) (n : Nat) (o : List Byte) (hfl : x ≠ .fl → f = s.fl) (hcycles : x ≠ .cycles → n = s.cycles)
      (hout : x ≠ .out → o = s.out) : SameBut x s { s with fl := f, cycles := n, out := o }

section
variable {x : SideField} {s s' : State}

theorem sameBut_set_fl (s : State) (f : Flag) : SameBut .fl s { s with fl := f } :=
  .intro f _ _ (absurd rfl) (fun _ => rfl) (fun _ => rfl)

theorem sameBut_set_cycles (s : State) (n : Nat) : SameBut .cycles s { s with cycles := n } :=
  .intro _ n _ (fun _ => rfl) (absurd rfl) (fun _ => rfl)

theorem sameBut_set_out (s : State) (o : List Byte) : SameBut .out s { s with out := o } :=
  .intro _ _ o (fun _ => rfl) (fun _ => rfl) (absurd rfl)

theorem SameBut.cycles_eq (h : SameBut x s s') (hx : x ≠ .cycles) : s'.cycles = s.cycles := by
  cases h with
  | intro _ _ _ _ hn _ => exact hn hx

/-- Putting the field back gives the same state. -/
theorem SameBut.restore_fl (h : SameBut .fl s s') : { s' with fl := s.fl } = s := by
  cases h with
  | intro f n o _ hn ho => rw [hn nofun, ho nofun]

theorem SameBut.restore_cycles (h : SameBut .cycles s s') : { s' with cycles := s.cycles } = s := by
  cases h with
  | intro f n o hf _ ho => rw [hf nofun, ho nofun]

theorem SameBut.restore_out (h : SameBut .out s s') : { s' with out := s.out } = s := by
  cases h with
  | intro f n o hf hn _ => rw [hf nofun, hn nofun]

/-! ### What each write keeps of that -/

theorem SameBut.takeFault (k : FaultKind) : SameBut x s s' → SameBut x (takeFault k s) (takeFault k s')
  | .intro f n o hf hn ho => .intro f n o hf hn ho

theorem SameBut.setPc (p : Byte) : SameBut x s s' → SameBut x { s with pc := p } { s' with pc := p }
  | .intro f n o hf hn ho => .intro f n o hf hn ho

theorem SameBut.setFL (g : Flag) : SameBut x s s' → SameBut x (s.setFL g) (s'.setFL g)
  | .intro _ n o _ hn ho => .intro g n o (fun _ => rfl) hn ho

theorem SameBut.emit (v : Byte) : SameBut x s s' → SameBut x (s.emit v) (s'.emit v)
  | .intro f n o hf hn ho => .intro f n (o ++ [v]) hf hn (fun hx => congrArg (· ++ [v]) (ho hx))

theorem SameBut.countCycle : SameBut x s s' → SameBut x s.countCycle s'.countCycle
  | .intro f n o hf hn ho => .intro f (n + 1) o hf (fun hx => congrArg (· + 1) (hn hx)) ho

end

/-! ### Handlers, `exec` and `step` from two such states -/

/-- Two answers that raise the same fault, or stage writes that differ in field `x` alone. -/
inductive SameAnswer (x : SideField) : Except FaultKind State → Except FaultKind State → Prop where
  | raise (k : FaultKind) : SameAnswer x (.error k) (.error k)
  | stage {u u' : State} (h : SameBut x u u') : SameAnswer x (.ok u) (.ok u')

section
variable {x : SideField} {s s' t : State}

theorem SameAnswer.ite {c : Prop} [Decidable c] {a b a' b' : Except FaultKind State} (h : SameAnswer x a a')
    (h' : SameAnswer x b b') : SameAnswer x (if c then a else b) (if c then a' else b') := by
  split
  · exact h
  · exact h'

/-- No handler reads cycles or out, and only JEQ's and JNE's read FL. -/
theorem handlerOf_sameBut (i : Instr) (h : SameBut x s s') (hx : x = .fl → i.opcode ≠ .jeq ∧ i.opcode ≠ .jne) :
    SameAnswer x (handlerOf i s) (handlerOf i s') := by
  cases hi : i.wellFormed with
  | false => rw [handlerOf_badIndex s hi, handlerOf_badIndex s' hi]; exact .raise _
  | true =>
    have hs := h
    obtain ⟨f, n, o, hf, hn, ho⟩ := h
    cases i <;> simp only [Instr.wellFormed, Instr.registerBytes, List.all_cons, List.all_nil, Bool.and_true,
      Bool.and_eq_true, namesRegister_iff] at hi
    case hlt | ret =>
      simp only [handlerOf, hltHandler_eq, retHandler_eq]
      exact .ite (.raise _) (.stage (.intro f n o hf hn ho))
    case push | pop | call =>
      obtain ⟨r, rfl⟩ := hi
      simp only [handlerOf, pushHandler_byte, stackPush_eq, popHandler_byte, callHandler_byte]
      exact .ite (.raise _) (.stage (.intro f n o hf hn ho))
    case div =>
      obtain ⟨⟨ra, rfl⟩, rb, rfl⟩ := hi
      simp only [handlerOf, divHandler_byte]
      exact .ite (.raise _) (.stage (.intro f n o hf hn ho))
    case jeq | jne =>
      obtain rfl := hf fun he => by simpa [Instr.opcode] using hx he
      obtain ⟨r, rfl⟩ := hi
      simp only [handlerOf, branchHandler_byte]
      exact .ite (.stage (.intro _ n o hf hn ho)) (.ite (.raise _) (.stage (.intro _ n o hf hn ho)))
    case prn =>
      obtain ⟨r, rfl⟩ := hi; simp only [handlerOf, prnHandler_byte]; exact .stage (hs.emit _)
    case cmp =>
      obtain ⟨⟨ra, rfl⟩, rb, rfl⟩ := hi; simp only [handlerOf, cmpHandler_byte]; exact .stage (hs.setFL _)
    case jmp | inc | dec | ldi =>
      obtain ⟨r, rfl⟩ := hi; simp only [handlerOf, jmpHandler_byte, unaryHandler_byte, ldiHandler_byte]
      exact .stage (.intro f n o hf hn ho)
    case add | sub | mul =>
      obtain ⟨⟨ra, rfl⟩, rb, rfl⟩ := hi; simp only [handlerOf, binaryHandler_byte]
      exact .stage (.intro f n o hf hn ho)

/-- The loop's advance reads none of the three fields. -/
theorem sequence_sameBut (op : Opcode) (pc : Byte) (h : SameBut x s s') :
    SameAnswer x (sequence op pc s) (sequence op pc s') := by
  by_cases ha : op.adv = 0
  · rw [sequence_handler ha, sequence_handler ha]; exact .stage h
  · rw [sequence_loop ha, sequence_loop ha]; exact .ite (.stage (h.setPc _)) (.raise _)

theorem exec_sameBut {i : Instr} (h : SameBut x s s') (hx : x = .fl → i.opcode ≠ .jeq ∧ i.opcode ≠ .jne)
    (he : exec i s = .next t) : ∃ t', exec i s' = .next t' ∧ SameBut x t t' := by
  have hpc : s'.pc = s.pc := by cases h; rfl
  have ha := handlerOf_sameBut i h hx
  rw [exec_eq_runHandler] at he ⊢
  generalize handlerOf i s = a at ha he
  generalize handlerOf i s' = a' at ha ⊢
  cases ha with
  | raise k => cases he; exact ⟨_, rfl, h.takeFault k⟩
  | @stage u u' hu =>
    have hq := sequence_sameBut i.opcode s.pc hu
    rw [runHandler_ok] at he ⊢
    rw [hpc]
    generalize sequence i.opcode s.pc u = b at hq he
    generalize sequence i.opcode s.pc u' = b' at hq ⊢
    cases hq with
    | raise k => cases he; exact ⟨_, rfl, h.takeFault k⟩
    | stage hv => cases he; exact ⟨_, rfl, hv.countCycle⟩

/-- The guard reads cycles and the limit alone. -/
theorem guardFires_sameBut (h : SameBut x s s') (hx : x ≠ .cycles) : guardFires s' = guardFires s := by
  cases h with
  | intro f n o _ hn _ => rw [hn hx]; rfl

/-- Non-interference of a step: where the guard answers alike, FL is read by JEQ and JNE only, cycles and out by none. -/
theorem step_sameBut (h : SameBut x s s') (hg : guardFires s' = guardFires s)
    (hx : x = .fl → s.opcodeByte ≠ 0x55#8 ∧ s.opcodeByte ≠ 0x56#8) (hst : step s = .next t) :
    ∃ t', step s' = .next t' ∧ SameBut x t t' := by
  have hf : fetch s' = fetch s := by cases h; exact fetch_congr rfl rfl
  have hr' : s'.status = s.status := by cases h; rfl
  obtain ⟨hr, ⟨hgs, rfl⟩ | ⟨hgs, k, hk, rfl⟩ | ⟨hgs, i, hi, he⟩⟩ := step_cases hst <;>
    rw [hr] at hr' <;> rw [hgs] at hg
  · exact ⟨_, step_guard hr' hg, h.takeFault _⟩
  · exact ⟨_, step_fetch_error hr' hg (hf.trans hk), h.takeFault _⟩
  · rw [step_fetch_ok hr' hg (hf.trans hi)]
    exact exec_sameBut h (fun hfl => ⟨fetch_opcode_ne .jeq rfl hi (hx hfl).1, fetch_opcode_ne .jne rfl hi (hx hfl).2⟩) he

end

/-! ### FL -/

/-- A step leaves FL as it was, or a CMP committed. -/
theorem step_fl_cases {s t : State} (h : step s = .next t) :
    t.fl = s.fl ∨ ∃ a b, fetch s = .ok (.cmp a b) ∧ Committed s t := by
  obtain ⟨k, rfl⟩ | ⟨-, i, hi, he, -, hc, -⟩ := step_fault_or_commit h
  · exact .inl rfl
  · by_cases ho : i.opcode = .cmp
    · cases i <;> cases ho
      exact .inr ⟨_, _, hi, hc⟩
    · exact .inl ((exec_effect he).fl_same ho)

/-- What a committed CMP leaves in FL. -/
theorem exec_cmp_committed_fl {a b : Byte} {s t : State} (h : exec (.cmp a b) s = .next t) (hc : Committed s t) :
    t.fl = compareFlag (s.operandValue a) (s.operandValue b) := by
  obtain ⟨hw, u, p, hu, rfl, -, -⟩ := exec_committed h hc
  simp only [Instr.wellFormed, Instr.registerBytes, List.all_cons, List.all_nil, Bool.and_true, Bool.and_eq_true,
    namesRegister_iff] at hw
  obtain ⟨⟨ra, rfl⟩, rb, rfl⟩ := hw
  rw [handlerOf, cmpHandler_byte] at hu
  cases hu
  simp only [operandValue_byte, setFL_fl]

/-- The same of a step that fetched a CMP. -/
theorem step_cmp_committed_fl {a b : Byte} {s t : State} (hi : fetch s = .ok (.cmp a b)) (h : step s = .next t)
    (hc : Committed s t) : t.fl = compareFlag (s.operandValue a) (s.operandValue b) := by
  obtain ⟨k, rfl⟩ | ⟨-, i, hi', he, -⟩ := step_fault_or_commit h
  · exact absurd hc not_committed_takeFault
  · cases hi.symm.trans hi'
    exact exec_cmp_committed_fl he hc

theorem compareFlag_ne_unset (p q : Byte) : compareFlag p q ≠ .unset := by
  unfold compareFlag
  split
  · decide
  · split <;> decide

/-- Settles O44. Where the step writes FL, a CMP committed, and the CMP of the changed state compares the same values. -/
theorem flagLifecycle : Obligations.FlagLifecycle := by
  unfold Obligations.FlagLifecycle
  refine ⟨rfl, fun s t h hop => ?_, fun s t h hfl => ?_, fun s t h hop hc => ?_, fun s t f hjeq hjne h => ?_⟩
  · obtain hsame | ⟨a, b, hi, -⟩ := step_fl_cases h
    · exact hsame
    · exact absurd (fetch_ok_opcode hi) hop
  · obtain hsame | ⟨a, b, hi, hc⟩ := step_fl_cases h
    · rwa [hsame]
    · rw [step_cmp_committed_fl hi h hc]; exact compareFlag_ne_unset _ _
  · obtain ⟨k, rfl⟩ | ⟨-, i, hi, he, -⟩ := step_fault_or_commit h
    · exact absurd hc not_committed_takeFault
    · exact (exec_effect he).fl_set (fetch_opcode_eq .cmp rfl hi hop) hc
  · have hs := sameBut_set_fl s f
    obtain ⟨t', ht', hst⟩ := step_sameBut hs (guardFires_sameBut hs nofun) (fun _ => ⟨hjeq, hjne⟩) h
    refine ⟨t', ht', hst.restore_fl, fun hwritten => ?_⟩
    obtain hsame | ⟨a, b, hi, hc⟩ := step_fl_cases h
    · exact absurd hsame hwritten
    · have hi' : fetch { s with fl := f } = .ok (.cmp a b) := (fetch_congr rfl rfl).trans hi
      have hcycles : t'.cycles = t.cycles := hst.cycles_eq nofun
      rw [step_cmp_committed_fl hi h hc, step_cmp_committed_fl hi' ht' (hcycles.trans hc)]
      rfl

/-! ### cycles -/

/-- Settles O45: a commit alone raises the count, and only the guard reads it. -/
theorem cycleCount : Obligations.CycleCount := by
  unfold Obligations.CycleCount
  refine ⟨rfl, fun s t hf h => ?_, fun s t n hg h => ?_⟩
  · obtain ⟨k, rfl⟩ | ⟨-, i, -, -, hft, hc, -⟩ := step_fault_or_commit h
    · simp
    · rw [hc, hft, if_pos hf]
  · obtain ⟨t', ht', hst⟩ := step_sameBut (sameBut_set_cycles s n) hg nofun h
    exact ⟨t', ht', hst.restore_cycles⟩

/-! ### out -/

/-- A committed PRN names a register and appends its value. -/
theorem exec_prn_committed_out {a : Byte} {s t : State} (h : exec (.prn a) s = .next t) (hc : Committed s t) :
    ∃ r : Reg, a = r.byte ∧ t.out = s.out ++ [s.getReg r] := by
  obtain ⟨hw, u, p, hu, rfl, -, -⟩ := exec_committed h hc
  simp only [Instr.wellFormed, Instr.registerBytes, List.all_cons, List.all_nil, Bool.and_true, namesRegister_iff] at hw
  obtain ⟨r, rfl⟩ := hw
  rw [handlerOf, prnHandler_byte] at hu
  cases hu
  exact ⟨r, rfl, rfl⟩

/-- Settles O46: PRN alone changes out, by one value when it commits, and no instruction reads it. -/
theorem outputSequence : Obligations.OutputSequence := by
  unfold Obligations.OutputSequence
  refine ⟨rfl, fun s t a => exec_prn_committed_out, fun s t h hout => ?_, fun s t o h => ?_⟩
  · obtain ⟨k, rfl⟩ | ⟨-, i, hi, he, -, hc, -⟩ := step_fault_or_commit h
    · exact absurd rfl hout
    · refine ⟨?_, hc⟩
      by_contra hop
      exact hout ((exec_effect he).out_same (fetch_opcode_ne .prn rfl hi hop))
  · have hs := sameBut_set_out s o
    obtain ⟨t', ht', hst⟩ := step_sameBut hs (guardFires_sameBut hs nofun) nofun h
    exact ⟨t', ht', hst.restore_out⟩

end Sys2Proof.Machine
end

section
/-! PROOFS. The execution loop's family: ADV, the next PC, HLT (40_execution_loop.md R101, R103, R106, R107). -/

namespace Sys2Proof.Machine

/-! ### The next PC -/

/-- Where the loop moves PC, the table's value is PC + ADV. -/
theorem nextPc_of_loop {i : Instr} (h : i.opcode.adv ≠ 0) (s : State) : nextPc i s = s.pc.toNat + i.opcode.adv := by
  cases i
  case hlt | ret | call | jmp | jeq | jne => exact absurd rfl h
  all_goals rfl

/-- The condition a branch tests, as the table words it. -/
theorem isEqual_iff (f : Flag) : f.isEqual = true ↔ f = .equal := by cases f <;> decide

/-- The address `n` past `b`, while it is one, as a number. -/
theorem toNat_add_ofNat {b : Byte} {n : Nat} (h : b.toNat + n ≤ 255) : (b + BitVec.ofNat 8 n).toNat = b.toNat + n := by
  rw [BitVec.toNat_add, BitVec.toNat_ofNat]
  omega

/-- A handler that writes PC stages the table's value. -/
theorem handlerOf_pc_of_owner {i : Instr} {s u : State} (ha : i.opcode.adv = 0) (hw : i.wellFormed = true)
    (h : handlerOf i s = .ok u) : (u.pc.toNat : Int) = nextPc i s := by
  have hlt := s.pc.isLt
  cases i <;> cases ha <;> simp only [Instr.wellFormed, Instr.registerBytes, List.all_cons, List.all_nil, Bool.and_true,
    namesRegister_iff] at hw
  case hlt =>
    rw [handlerOf, hltHandler_eq] at h
    split at h <;> cases h
    exact congrArg Int.ofNat (toNat_add_ofNat (n := 1) (by omega))
  case ret =>
    rw [handlerOf, retHandler_eq] at h
    split at h <;> cases h
    rfl
  case call =>
    obtain ⟨r, rfl⟩ := hw
    rw [handlerOf, callHandler_byte] at h
    split at h <;> cases h
    simp only [nextPc, operandValue_byte]
  case jmp =>
    obtain ⟨r, rfl⟩ := hw
    rw [handlerOf, jmpHandler_byte] at h
    cases h
    simp only [nextPc, operandValue_byte]
  case jeq | jne =>
    obtain ⟨r, rfl⟩ := hw
    rw [handlerOf, branchHandler_byte] at h
    simp only [nextPc, operandValue_byte, ← isEqual_iff, ne_eq, Bool.not_eq_true, Bool.not_eq_true'] at h ⊢
    split at h
    · next htaken => cases h; rw [if_pos htaken]
    · next hfall =>
      rw [if_neg hfall]
      split at h <;> cases h
      exact congrArg Int.ofNat (toNat_add_ofNat (n := 2) (by omega))

/-- A commit leaves PC at the table's value. -/
theorem exec_committed_pc {i : Instr} {s t : State} (h : exec i s = .next t) (hc : Committed s t) :
    (t.pc.toNat : Int) = nextPc i s := by
  obtain ⟨hw, u, p, hu, rfl, howner, hloop⟩ := exec_committed h hc
  by_cases ha : i.opcode.adv = 0
  · have hpc := handlerOf_pc_of_owner ha hw hu
    rwa [← howner ha] at hpc
  · rw [nextPc_of_loop ha]
    exact congrArg Int.ofNat (hloop ha)

/-- So nothing commits where the table's value is no address. -/
theorem not_committed_of_nextPc_past {i : Instr} {s t : State} (hpast : 255 < nextPc i s) (h : exec i s = .next t) :
    ¬ Committed s t := by
  intro hc
  have hpc := exec_committed_pc h hc
  have hlt := t.pc.isLt
  omega

theorem faultsWith_of_nextPc_past {i : Instr} {s : State} (hpast : 255 < nextPc i s) : ∃ k, FaultsWith k i s := by
  obtain ⟨t, h⟩ := exec_next i s
  obtain ⟨k, -, -, rfl⟩ | ⟨-, hc, -⟩ := exec_fault_or_commit h
  · exact ⟨k, h⟩
  · exact absurd hc (not_committed_of_nextPc_past hpast h)

/-- Where the operands name registers, a next PC past 255 is an AddressingFault, unless DIV's divisor comes first
(60_exceptions.md R207). -/
theorem faultsWith_addressing_of_nextPc_past {i : Instr} {s : State} (hw : i.wellFormed = true)
    (hpast : 255 < nextPc i s) :
    FaultsWith .addressing i s ∨ ∃ a b, i = .div a b ∧ s.operandValue b = 0#8 := by
  obtain ⟨t, h⟩ := exec_next i s
  obtain ⟨k, hk, rfl⟩ | ⟨-, -, -, -, rfl⟩ | ⟨u, v, hu, hv, rfl⟩ := exec_inv h
  · obtain ⟨-, hbad⟩ | ⟨-, ra, rb, hdiv, hz⟩ | ⟨rfl, -⟩ := handlerOf_error hk
    · rw [hw] at hbad; cases hbad
    · exact .inr ⟨_, _, hdiv, (operandValue_byte s rb).trans hz⟩
    · exact .inl h
  · exact .inl h
  · obtain ⟨-, hcycles, -⟩ := handlerOf_keeps hu
    obtain ⟨p, rfl, -, -⟩ := sequence_ok hv
    exact absurd (congrArg (· + 1) hcycles) (not_committed_of_nextPc_past hpast h)

theorem nextPc_nonneg (i : Instr) (s : State) : 0 ≤ nextPc i s := by
  cases i <;> simp only [nextPc]
  case jeq | jne => split <;> omega
  all_goals omega

theorem toNat_le_255 (b : Byte) : (b.toNat : Int) ≤ 255 := by
  have := b.isLt
  omega

/-- Settles O11: a commit stages the table's value, so a value past 255 leaves only the faults. -/
theorem nextPcTable : Obligations.NextPcTable := by
  unfold Obligations.NextPcTable
  refine ⟨fun _ _ _ => exec_committed_pc, fun _ _ => faultsWith_of_nextPc_past,
    fun _ _ => faultsWith_addressing_of_nextPc_past, nextPc_nonneg, fun s a => ?_⟩
  have hjump : nextPc (.jmp a) s ≤ 255 := toNat_le_255 _
  refine ⟨hjump, hjump, toNat_le_255 _, fun heq => ?_, fun hne => ?_⟩
  · rw [nextPc, if_pos heq]; exact toNat_le_255 _
  · rw [nextPc, if_pos hne]; exact toNat_le_255 _

/-! ### Halting -/

/-- A committed instruction that takes a Running machine to Halted is HLT. -/
theorem eq_hlt_of_committed_halts {i : Instr} {s t : State} (hr : s.status = .running) (h : exec i s = .next t)
    (hc : Committed s t) (hh : t.status = .halted) : i = .hlt := by
  obtain ⟨k, -, -, rfl⟩ | ⟨-, -, -, hkeeps, -⟩ := exec_fault_or_commit h
  · exact absurd hc not_committed_takeFault
  · by_contra hne
    rw [hkeeps hne, hr] at hh
    cases hh

/-- Settles O10: a fault leaves a record, so a clean halt is a commit, and the commit that halts is HLT's. -/
theorem onlyHltHaltsCleanly : Obligations.OnlyHltHaltsCleanly := by
  unfold Obligations.OnlyHltHaltsCleanly
  intro s t h
  obtain ⟨hr, -⟩ := step_cases h
  refine ⟨hr, fun _ hclean => ?_⟩
  obtain ⟨hhalted, hnone⟩ := hclean
  obtain ⟨k, rfl⟩ | ⟨-, i, hi, he, -, hc, -⟩ := step_fault_or_commit h
  · rw [takeFault_fault] at hnone; cases hnone
  · obtain rfl := eq_hlt_of_committed_halts hr he hc hhalted
    exact ⟨fetch_ok_opcode hi, hc⟩

/-- Settles O34, by what HLT's handler answers up to 254 and at 255. -/
theorem hltRule : Obligations.HltRule := by
  unfold Obligations.HltRule
  refine ⟨rfl, fun s hpc => ?_, fun s hpc => ?_, fun i s t hr h hh _ hc => eq_hlt_of_committed_halts hr h hc hh⟩
  · have hok := (hltHandler_eq s).trans (if_neg (by omega))
    exact exec_of_ok_handler (i := .hlt) hok rfl
  · have herr := (hltHandler_eq s).trans (if_pos hpc)
    exact exec_of_error (i := .hlt) herr

end Sys2Proof.Machine

namespace Sys2Proof

/-! ### The dispatch table's ADV column -/

theorem adv_eq (o : Opcode) : o.adv = if o.pcOwner = .handler then 0 else 1 + o.operandCount := by cases o <;> rfl

theorem pcOwner_handler_iff (o : Opcode) : o.pcOwner = .handler ↔ o ∈ [.call, .ret, .jmp, .jeq, .jne, .hlt] := by
  cases o <;> decide

/-- Settles O5, row by row of the table. -/
theorem advanceWidthFollowsOwner : Obligations.AdvanceWidthFollowsOwner :=
  fun o => ⟨adv_eq o, pcOwner_handler_iff o⟩

end Sys2Proof
end

section
/-! PROOFS. The ALU's family: ADD, SUB, MUL, DIV, INC, DEC and CMP (41_alu.md R131 to R137). -/

namespace Sys2Proof.Machine

/-! ### The faults that the rules of an instruction share -/

/-- A register operand byte of 5..255, wherever it stands in the instruction (60_exceptions.md R204). -/
theorem faultsWith_registerIndex {i : Instr} {b : Byte} (s : State) (hb : b ∈ i.registerBytes) (h5 : 5 ≤ b.toNat) :
    FaultsWith .registerIndex i s := by
  have hw : i.wellFormed = false :=
    List.all_eq_false.2 ⟨b, hb, by rw [namesRegister, decide_eq_true_eq]; omega⟩
  exact exec_badIndex s hw

theorem faultsWith_registerIndex_of_two {i : Instr} {a b : Byte} (s : State) (hi : i.registerBytes = [a, b])
    (h5 : 5 ≤ a.toNat ∨ 5 ≤ b.toNat) : FaultsWith .registerIndex i s := by
  obtain ha | hb := h5
  · exact faultsWith_registerIndex s (by simp [hi]) ha
  · exact faultsWith_registerIndex s (by simp [hi]) hb

/-- An operand byte past address 255, for every row of the dispatch table (60_exceptions.md R201). -/
theorem operandFetchFaults (o : Opcode) : OperandFetchFaults o.byte o.operandCount := by
  intro s hready hop hpast
  obtain ⟨hr, hg⟩ := hready
  exact step_fetch_error hr hg (fetch_past hop hpast)

/-! ### Results modulo 256 -/

/-- `u8` sees a value only modulo 256 (00_scope.md R7). -/
theorem u8_eq_ofNat_mod {v : Int} {n : Nat} (h : v % 256 = (n : Int) % 256) : u8 v = BitVec.ofNat 8 (n % 256) := by
  have hv : ((u8 v).toNat : Int) = v % 256 := val_u8 v
  apply BitVec.eq_of_toNat_eq
  rw [BitVec.toNat_ofNat]
  omega

theorem u8_val_add (p q : Byte) : u8 (val p + val q) = BitVec.ofNat 8 ((p.toNat + q.toNat) % 256) :=
  u8_eq_ofNat_mod (congrArg (· % 256) (Nat.cast_add _ _).symm)

theorem u8_val_mul (p q : Byte) : u8 (val p * val q) = BitVec.ofNat 8 ((p.toNat * q.toNat) % 256) :=
  u8_eq_ofNat_mod (congrArg (· % 256) (Nat.cast_mul _ _).symm)

/-- A difference below 0 wraps as if 256 were added first. -/
theorem u8_val_sub (p q : Byte) : u8 (val p - val q) = BitVec.ofNat 8 ((256 + p.toNat - q.toNat) % 256) := by
  have hq := q.isLt
  apply u8_eq_ofNat_mod
  unfold val
  omega

theorem u8_val_add_one (p : Byte) : u8 (val p + 1) = BitVec.ofNat 8 ((p.toNat + 1) % 256) :=
  u8_eq_ofNat_mod (congrArg (· % 256) (Nat.cast_succ _).symm)

theorem u8_val_sub_one (p : Byte) : u8 (val p - 1) = BitVec.ofNat 8 ((p.toNat + 255) % 256) := by
  apply u8_eq_ofNat_mod
  unfold val
  omega

/-! ### ADD, SUB and MUL -/

/-- The rule of an instruction that stages `f` of its two values in x[a]. -/
theorem twoRegisterRule_of_handler {o : Opcode} {f : Nat → Nat → Nat} (ho : o = .add ∨ o = .sub ∨ o = .mul)
    (hok : ∀ (s : State) (ra rb : Reg), handlerOf (instrOf o ra.byte rb.byte) s =
      .ok (s.setReg ra (BitVec.ofNat 8 (f (s.getReg ra).toNat (s.getReg rb).toNat)))) :
    TwoRegisterRule o.byte (instrOf o) f := by
  obtain rfl | rfl | rfl := ho
  all_goals exact ⟨fun _ _ => rfl,
    fun s ra rb hpc => exec_of_ok_loop (hok s ra rb) (Nat.succ_ne_zero _) (Nat.add_le_add_right hpc 3),
    fun s ra rb hpc => exec_of_ok_past (hok s ra rb) (Nat.succ_ne_zero _) (Nat.add_le_add_right hpc 3),
    fun s _ _ => faultsWith_registerIndex_of_two s rfl,
    operandFetchFaults _⟩

/-- Settles O19: the three handlers stage the sum, the difference and the product modulo 256. -/
theorem addSubMulRules : Obligations.AddSubMulRules := by
  unfold Obligations.AddSubMulRules
  refine ⟨twoRegisterRule_of_handler (o := .add) (.inl rfl) fun s ra rb => ?_,
    twoRegisterRule_of_handler (o := .sub) (.inr (.inl rfl)) fun s ra rb => ?_,
    twoRegisterRule_of_handler (o := .mul) (.inr (.inr rfl)) fun s ra rb => ?_⟩ <;>
    rw [instrOf, handlerOf, binaryHandler_byte]
  · rw [u8_val_add]
  · rw [u8_val_sub]
  · rw [u8_val_mul]

/-! ### DIV -/

/-- Settles O20: DIV's handler answers by the divisor, and PC is checked only after it. -/
theorem divRule : Obligations.DivRule := by
  unfold Obligations.DivRule
  refine ⟨fun _ _ => rfl, fun s ra rb hpc hne => ?_, fun s ra rb hz => ?_, fun s ra rb hpc hne => ?_,
    fun s _ _ => faultsWith_registerIndex_of_two s rfl, operandFetchFaults .div⟩
  · have hok := (divHandler_byte ra rb s).trans (if_neg hne)
    exact exec_of_ok_loop (i := .div ra.byte rb.byte) hok (Nat.succ_ne_zero _) (Nat.add_le_add_right hpc 3)
  · have herr := (divHandler_byte ra rb s).trans (if_pos hz)
    exact exec_of_error (i := .div ra.byte rb.byte) herr
  · have hok := (divHandler_byte ra rb s).trans (if_neg hne)
    exact exec_of_ok_past (i := .div ra.byte rb.byte) hok (Nat.succ_ne_zero _) (Nat.add_le_add_right hpc 3)

/-! ### INC and DEC -/

/-- The rule of an instruction that stages `f` of its value in x[a]. -/
theorem oneRegisterRule_of_handler {o : Opcode} {f : Nat → Nat} (ho : o = .inc ∨ o = .dec)
    (hok : ∀ (s : State) (ra : Reg), handlerOf (instrOf o ra.byte 0#8) s =
      .ok (s.setReg ra (BitVec.ofNat 8 (f (s.getReg ra).toNat)))) :
    OneRegisterRule o.byte (fun a => instrOf o a 0#8) f := by
  obtain rfl | rfl := ho
  all_goals exact ⟨fun _ => rfl,
    fun s ra hpc => exec_of_ok_loop (hok s ra) (Nat.succ_ne_zero _) (Nat.add_le_add_right hpc 2),
    fun s ra hpc => exec_of_ok_past (hok s ra) (Nat.succ_ne_zero _) (Nat.add_le_add_right hpc 2),
    fun s _ => faultsWith_registerIndex s (List.mem_singleton.2 rfl),
    operandFetchFaults _⟩

/-- Settles O21: the two handlers stage the value one above and one below modulo 256. -/
theorem incDecRules : Obligations.IncDecRules := by
  unfold Obligations.IncDecRules
  refine ⟨oneRegisterRule_of_handler (o := .inc) (.inl rfl) fun s ra => ?_,
    oneRegisterRule_of_handler (o := .dec) (.inr rfl) fun s ra => ?_⟩ <;>
    rw [instrOf, handlerOf, unaryHandler_byte]
  · rw [u8_val_add_one]
  · rw [u8_val_sub_one]

/-! ### CMP -/

theorem compareFlag_of_eq {p q : Byte} (h : p.toNat = q.toNat) : compareFlag p q = .equal := if_pos h

theorem compareFlag_of_lt {p q : Byte} (h : p.toNat < q.toNat) : compareFlag p q = .lessThan :=
  (if_neg h.ne).trans (if_pos h)

theorem compareFlag_of_gt {p q : Byte} (h : q.toNat < p.toNat) : compareFlag p q = .greaterThan :=
  (if_neg h.ne').trans (if_neg h.asymm)

/-- Each flag is given exactly on its side of the unsigned order. -/
theorem compareFlag_iff (p q : Byte) :
    (compareFlag p q = .equal ↔ p = q) ∧ (compareFlag p q = .lessThan ↔ p.toNat < q.toNat) ∧
      (compareFlag p q = .greaterThan ↔ q.toNat < p.toNat) := by
  rw [← BitVec.toNat_inj]
  obtain h | h | h := lt_trichotomy p.toNat q.toNat
  · rw [compareFlag_of_lt h]; simp [h, h.ne, h.le]
  · rw [compareFlag_of_eq h]; simp [h]
  · rw [compareFlag_of_gt h]; simp [h, h.ne', h.le]

/-- Settles O22: CMP's handler stages the comparison's flag and nothing else. -/
theorem cmpRule : Obligations.CmpRule := by
  unfold Obligations.CmpRule
  refine ⟨fun _ _ => rfl, fun s ra rb hpc => ⟨_, ?_, compareFlag_iff _ _⟩, fun s ra rb hpc => ?_,
    fun s _ _ => faultsWith_registerIndex_of_two s rfl, operandFetchFaults .cmp⟩
  · exact exec_of_ok_loop (i := .cmp ra.byte rb.byte) (cmpHandler_byte ra rb s) (Nat.succ_ne_zero _)
      (Nat.add_le_add_right hpc 3)
  · exact exec_of_ok_past (i := .cmp ra.byte rb.byte) (cmpHandler_byte ra rb s) (Nat.succ_ne_zero _)
      (Nat.add_le_add_right hpc 3)

end Sys2Proof.Machine
end

section
/-! PROOFS. Data movement's family: LDI and PRN (42_data_movement.md R150, R151). -/

namespace Sys2Proof.Machine

/-- Settles O23: LDI's handler reads the register byte alone, so it stages every immediate as it is. -/
theorem ldiRule : Obligations.LdiRule := by
  unfold Obligations.LdiRule
  refine ⟨fun _ _ => rfl, fun s ra b hpc => ?_, fun s ra b hpc => ?_,
    fun s _ _ => faultsWith_registerIndex s (List.mem_singleton.2 rfl), operandFetchFaults .ldi⟩
  · exact exec_of_ok_loop (i := .ldi ra.byte b) (ldiHandler_byte ra b s) (Nat.succ_ne_zero _)
      (Nat.add_le_add_right hpc 3)
  · exact exec_of_ok_past (i := .ldi ra.byte b) (ldiHandler_byte ra b s) (Nat.succ_ne_zero _)
      (Nat.add_le_add_right hpc 3)

/-- Settles O24: PRN's handler stages one append to out, and a fault discards it with the rest. -/
theorem prnRule : Obligations.PrnRule := by
  unfold Obligations.PrnRule
  refine ⟨fun _ => rfl, fun s ra hpc => ?_, fun s ra hpc => ?_,
    fun s _ => faultsWith_registerIndex s (List.mem_singleton.2 rfl), operandFetchFaults .prn⟩
  · exact exec_of_ok_loop (i := .prn ra.byte) (prnHandler_byte ra s) (Nat.succ_ne_zero _)
      (Nat.add_le_add_right hpc 2)
  · exact exec_of_ok_past (i := .prn ra.byte) (prnHandler_byte ra s) (Nat.succ_ne_zero _)
      (Nat.add_le_add_right hpc 2)

end Sys2Proof.Machine
end

section
/-! PROOFS. The stack's family: PUSH and POP (43_stack.md R161, R162). -/

namespace Sys2Proof.Machine

/-- An instruction that the loop moves past address 255 raises AddressingFault even where its handler raises too: the
handler of a form other than DIV, on operands that name registers, raises that kind alone (60_exceptions.md R207). -/
theorem faultsWith_addressing_of_advance_past {i : Instr} {s : State} (hw : i.wellFormed = true)
    (ha : i.opcode.adv ≠ 0) (hdiv : i.opcode ≠ .div) (hpast : 255 < s.pc.toNat + i.opcode.adv) :
    FaultsWith .addressing i s := by
  have hnext : 255 < nextPc i s := by rw [nextPc_of_loop ha]; exact_mod_cast hpast
  obtain h | ⟨_, _, rfl, -⟩ := faultsWith_addressing_of_nextPc_past hw hnext
  · exact h
  · exact absurd rfl hdiv

/-- A store just below SP, read back: that cell gives the byte stored and every other cell what it held
(43_stack.md R160). -/
theorem read_write_below_sp {s : State} (hs : s.sp.toNat ≠ 0) (hm : s.mem.wf = true) (v : Byte) (a : Nat) :
    (s.mem.write (s.sp.toNat - 1) v).read a = if a = (s.sp - 1#8).toNat then v else s.mem.read a := by
  rw [sp_sub_toNat hs, read_write hm]

/-- Such a store keeps the canonical form. -/
theorem write_below_sp_wf {s : State} (hm : s.mem.wf = true) (v : Byte) :
    (s.mem.write (s.sp.toNat - 1) v).wf = true :=
  write_wf hm ((Nat.sub_le _ _).trans_lt s.sp.isLt) v

/-- PUSH's handler in full on an operand that names a register. -/
theorem pushHandler_byte_eq (ra : Reg) (s : State) :
    pushHandler ra.byte s = if s.sp.toNat = 0 then .error .addressing
      else .ok { s with mem := s.mem.write (s.sp.toNat - 1) (s.getReg ra), sp := s.sp - 1#8 } :=
  (pushHandler_byte ra s).trans (stackPush_eq _ s)

/-- Settles O25: PUSH's handler answers by SP, and its one store lies just below it. -/
theorem pushRule : Obligations.PushRule := by
  unfold Obligations.PushRule
  refine ⟨fun _ => rfl,
    fun s ra hpc hs hm => ⟨_, ?commit, write_below_sp_wf hm _, read_write_below_sp hs hm _⟩,
    fun s ra hs => ?bottom, fun s ra hpc => ?past,
    fun s _ => faultsWith_registerIndex s (List.mem_singleton.2 rfl), operandFetchFaults .push⟩
  case commit =>
    have hok := (pushHandler_byte_eq ra s).trans (if_neg hs)
    exact exec_of_ok_loop (i := .push ra.byte) hok (Nat.succ_ne_zero _) (Nat.add_le_add_right hpc 2)
  case bottom =>
    have herr := (pushHandler_byte_eq ra s).trans (if_pos hs)
    exact exec_of_error (i := .push ra.byte) herr
  case past =>
    have hw : (Instr.push ra.byte).wellFormed = true := by cases ra <;> rfl
    exact faultsWith_addressing_of_advance_past hw (Nat.succ_ne_zero _) nofun (Nat.add_le_add_right hpc 2)

/-- Settles O26: POP's handler answers by SP and stages no store, so the popped cell stays as it was. -/
theorem popRule : Obligations.PopRule := by
  unfold Obligations.PopRule
  refine ⟨fun _ => rfl, fun s ra hpc hs => ?commit, fun s ra hs => ?top, fun s ra hpc => ?past,
    fun s _ => faultsWith_registerIndex s (List.mem_singleton.2 rfl), operandFetchFaults .pop⟩
  case commit =>
    have hok := (popHandler_byte ra s).trans (if_neg hs)
    exact exec_of_ok_loop (i := .pop ra.byte) hok (Nat.succ_ne_zero _) (Nat.add_le_add_right hpc 2)
  case top =>
    have herr := (popHandler_byte ra s).trans (if_pos hs)
    exact exec_of_error (i := .pop ra.byte) herr
  case past =>
    have hw : (Instr.pop ra.byte).wellFormed = true := by cases ra <;> rfl
    exact faultsWith_addressing_of_advance_past hw (Nat.succ_ne_zero _) nofun (Nat.add_le_add_right hpc 2)

end Sys2Proof.Machine
end

section
/-! PROOFS. Control transfer's family: CALL, RET, JMP, JEQ and JNE (44_control_flow.md R171 to R175). -/

namespace Sys2Proof.Machine

/-! ### CALL and RET -/

/-- CALL raises AddressingFault where the return address or SP - 1 is no address. -/
theorem call_faultsWith_addressing (ra : Reg) {s : State} (h : 254 ≤ s.pc.toNat ∨ s.sp.toNat = 0) :
    FaultsWith .addressing (.call ra.byte) s := by
  have herr := (callHandler_byte ra s).trans (if_pos h)
  exact exec_of_error (i := .call ra.byte) herr

/-- Settles O28: CALL's handler answers by PC and SP; where both allow it, its one store is the return address, just
below SP. -/
theorem callRule : Obligations.CallRule := by
  unfold Obligations.CallRule
  refine ⟨fun _ => rfl,
    fun s ra hpc hs hm => ⟨_, ?commit, write_below_sp_wf hm _, read_write_below_sp hs hm _⟩,
    fun s ra hs => call_faultsWith_addressing ra (.inr hs),
    fun s ra hpc => call_faultsWith_addressing ra (.inl hpc),
    fun s _ => faultsWith_registerIndex s (List.mem_singleton.2 rfl), operandFetchFaults .call⟩
  case commit =>
    have hfits : ¬ (254 ≤ s.pc.toNat ∨ s.sp.toNat = 0) := by omega
    have hok := (callHandler_byte ra s).trans (if_neg hfits)
    exact exec_of_ok_handler (i := .call ra.byte) hok rfl

/-- Settles O29: RET's handler answers by SP alone, so no address and no origin of the byte matters. -/
theorem retRule : Obligations.RetRule := by
  unfold Obligations.RetRule
  refine ⟨rfl, fun s hs => ?commit, fun s hs => ?top⟩
  case commit =>
    have hok := (retHandler_eq s).trans (if_neg hs)
    exact exec_of_ok_handler (i := .ret) hok rfl
  case top =>
    have herr := (retHandler_eq s).trans (if_pos hs)
    exact exec_of_error (i := .ret) herr

/-! ### JMP -/

/-- Settles O31: JMP's handler stages x[a] as PC, wherever the JMP stands. -/
theorem jmpRule : Obligations.JmpRule := by
  unfold Obligations.JmpRule
  exact ⟨fun _ => rfl, fun s ra => exec_of_ok_handler (i := .jmp ra.byte) (jmpHandler_byte ra s) rfl,
    fun s _ => faultsWith_registerIndex s (List.mem_singleton.2 rfl), operandFetchFaults .jmp⟩

/-! ### JEQ and JNE -/

/-- JNE's condition: every flag but Equal, Unset among them. -/
theorem not_isEqual_iff (f : Flag) : (!f.isEqual) = true ↔ f = .unset ∨ f = .lessThan ∨ f = .greaterThan := by
  cases f <;> decide

/-- The rule of an instruction whose handler is the shared branch, on a test `c` that decides `taken`. -/
theorem branchRule_of_handler {o : Opcode} {c : State → Bool} {taken : State → Prop} (ho : o = .jeq ∨ o = .jne)
    (hbranch : ∀ (s : State) (a : Byte), handlerOf (instrOf o a 0#8) s = branchHandler (c s) a s)
    (htest : ∀ s, c s = true ↔ taken s) : BranchRule o.byte (fun a => instrOf o a 0#8) taken := by
  have hjump {s : State} (ra : Reg) (ht : taken s) :
      handlerOf (instrOf o ra.byte 0#8) s = .ok { s with pc := s.getReg ra } := by
    rw [hbranch, branchHandler_byte, if_pos ((htest s).2 ht)]
  have hfall {s : State} (ra : Reg) (hn : ¬ taken s) : handlerOf (instrOf o ra.byte 0#8) s =
      if 254 ≤ s.pc.toNat then .error .addressing else .ok { s with pc := s.pc + 2#8 } := by
    rw [hbranch, branchHandler_byte, if_neg (mt (htest s).1 hn)]
  obtain rfl | rfl := ho
  all_goals exact ⟨fun _ => rfl,
    fun s ra ht => exec_of_ok_handler (hjump ra ht) rfl,
    fun s ra hn hpc => exec_of_ok_handler ((hfall ra hn).trans (if_neg (Nat.lt_succ_of_le hpc).not_ge)) rfl,
    fun s ra hn hpc => exec_of_error ((hfall ra hn).trans (if_pos hpc)),
    fun s _ => faultsWith_registerIndex s (List.mem_singleton.2 rfl),
    operandFetchFaults _⟩

/-- Settles O32: the two branches share one handler, on tests that answer oppositely for every flag. -/
theorem branchRules : Obligations.BranchRules := by
  unfold Obligations.BranchRules
  exact ⟨branchRule_of_handler (o := .jeq) (.inl rfl) (fun _ _ => rfl) fun s => isEqual_iff s.fl,
    branchRule_of_handler (o := .jne) (.inr rfl) (fun _ _ => rfl) fun s => not_isEqual_iff s.fl⟩

end Sys2Proof.Machine
end

section
/-! PROOFS. The exceptions' family: the five faults, their order and their precision (60_exceptions.md R201 to R207). -/

namespace Sys2Proof.Machine

/-! ### The instruction at PC, fetched -/

/-- A byte of the table is some opcode's. -/
theorem exists_opcode_of_mem {b : Byte} (h : b ∈ tableOpcodes) : ∃ o : Opcode, b = o.byte := by
  obtain ⟨o, ho⟩ := Option.ne_none_iff_exists'.1 ((mem_tableOpcodes_iff b).1 h)
  exact ⟨o, (ofByte_eq_some_iff b o).1 ho⟩

/-- What is fetched is made of the bytes at PC. -/
theorem eq_instrOf_of_fetch {i : Instr} {s : State} (hi : fetch s = .ok i) :
    i = instrOf i.opcode (s.operandByte 1) (s.operandByte 2) := by
  have hop := fetch_ok_opcode hi
  rw [fetch_eq, hop, ofByte_byte] at hi
  dsimp only at hi
  split at hi
  · cases hi
  · exact (Except.ok.inj hi).symm

/-- Past the operand fetch, the step is the meaning of what was fetched. -/
theorem exists_step_eq_exec {s : State} (hr : s.status = .running) (hg : guardFires s = false)
    (hop : s.opcodeByte ∈ tableOpcodes) (hN : s.pc.toNat + tableN s.opcodeByte ≤ 255) :
    ∃ i, fetch s = .ok i ∧ step s = exec i s := by
  obtain ⟨o, ho⟩ := exists_opcode_of_mem hop
  rw [ho, tableN_byte] at hN
  have hi := fetch_of_opcode ho hN
  exact ⟨_, hi, step_fetch_ok hr hg hi⟩

section
variable {i : Instr} {s : State} (hi : fetch s = .ok i)
include hi

theorem opcodeByte_of_fetch : s.opcodeByte = i.opcode.byte := fetch_ok_opcode hi

theorem badIndex_iff_of_fetch : s.badIndex ↔ i.wellFormed = false := by
  rw [badIndex_iff s i.opcode (opcodeByte_of_fetch hi), ← eq_instrOf_of_fetch hi]

theorem wellFormed_of_not_badIndex (h : ¬ s.badIndex) : i.wellFormed = true := by
  rwa [badIndex_iff_of_fetch hi, Bool.not_eq_false] at h

theorem zeroDivisor_iff_of_fetch : s.zeroDivisor ↔ ∃ a b, i = .div a b ∧ s.operandValue b = 0#8 := by
  have hop : s.opcodeByte = 0xA3#8 ↔ i.opcode = .div := by
    rw [opcodeByte_of_fetch hi]
    exact byte_injective i.opcode .div
  have heq := eq_instrOf_of_fetch hi
  rw [State.zeroDivisor, hop]
  constructor
  · rintro ⟨ho, hz⟩
    rw [ho] at heq
    exact ⟨_, _, heq, hz⟩
  · rintro ⟨a, b, rfl, hz⟩
    cases heq
    exact ⟨rfl, hz⟩

end

/-! ### What a handler raises, in the terms of R207 -/

section
variable {i : Instr} {s : State}

/-- Point 5: DIV's handler, once both operands name registers. -/
theorem handlerOf_of_zeroDivisor (hi : fetch s = .ok i) (hw : i.wellFormed = true) (hz : s.zeroDivisor) :
    handlerOf i s = .error .divisionByZero := by
  obtain ⟨a, b, rfl, hb⟩ := (zeroDivisor_iff_of_fetch hi).1 hz
  simp only [Instr.wellFormed, Instr.registerBytes, List.all_cons, List.all_nil, Bool.and_true, Bool.and_eq_true,
    namesRegister_iff] at hw
  obtain ⟨⟨ra, rfl⟩, rb, rfl⟩ := hw
  rw [operandValue_byte] at hb
  exact (divHandler_byte ra rb s).trans (if_pos hb)

/-- Point 6: on operands that name registers, a handler raises AddressingFault exactly where the point says. -/
theorem handlerOf_addressing_iff (hop : s.opcodeByte = i.opcode.byte) (hw : i.wellFormed = true) :
    handlerOf i s = .error .addressing ↔ s.handlerPastEnd := by
  have hlt := s.pc.isLt
  unfold State.handlerPastEnd
  rw [hop]
  cases i <;> simp only [Instr.wellFormed, Instr.registerBytes, List.all_cons, List.all_nil, Bool.and_true,
    Bool.and_eq_true, namesRegister_iff] at hw
  case hlt =>
    simp [handlerOf, hltHandler_eq, Instr.opcode, Opcode.byte]
    omega
  case ret => simp [handlerOf, retHandler_eq, Instr.opcode, Opcode.byte]
  case push =>
    obtain ⟨r, rfl⟩ := hw
    simp [handlerOf, pushHandler_byte_eq, Instr.opcode, Opcode.byte]
  case pop =>
    obtain ⟨r, rfl⟩ := hw
    simp [handlerOf, popHandler_byte, Instr.opcode, Opcode.byte]
  case call =>
    obtain ⟨r, rfl⟩ := hw
    simp [handlerOf, callHandler_byte, Instr.opcode, Opcode.byte]
    omega
  case jeq | jne =>
    obtain ⟨r, rfl⟩ := hw
    simp [handlerOf, branchHandler_byte, Instr.opcode, Opcode.byte, ← isEqual_iff]
    cases s.fl.isEqual <;> simp
    omega
  case div =>
    obtain ⟨⟨ra, rfl⟩, rb, rfl⟩ := hw
    simp [handlerOf, divHandler_byte, Instr.opcode, Opcode.byte]
    split <;> nofun
  case prn | jmp | inc | dec | ldi =>
    obtain ⟨r, rfl⟩ := hw
    simp [handlerOf, Instr.opcode, Opcode.byte]
  case add | sub | mul | cmp =>
    obtain ⟨⟨ra, rfl⟩, rb, rfl⟩ := hw
    simp [handlerOf, Instr.opcode, Opcode.byte]

/-- Where points 4 to 6 find no fault, the handler stages its writes. -/
theorem exists_handlerOf_ok (hi : fetch s = .ok i) (hw : i.wellFormed = true) (hz : ¬ s.zeroDivisor)
    (hp : ¬ s.handlerPastEnd) : ∃ u, handlerOf i s = .ok u := by
  cases hh : handlerOf i s with
  | ok u => exact ⟨u, rfl⟩
  | error k =>
    obtain ⟨-, hbad⟩ | ⟨-, ra, rb, hdiv, hzero⟩ | ⟨rfl, -⟩ := handlerOf_error hh
    · rw [hw] at hbad; cases hbad
    · exact absurd ((zeroDivisor_iff_of_fetch hi).2 ⟨_, _, hdiv, (operandValue_byte s rb).trans hzero⟩) hz
    · exact absurd ((handlerOf_addressing_iff (opcodeByte_of_fetch hi) hw).1 hh) hp

/-- Where point 7 finds no fault either, the staged writes commit: the record stays and the count rises. -/
theorem exec_commits_of_ok {u : State} (hu : handlerOf i s = .ok u) (hadv : s.pc.toNat + i.opcode.adv ≤ 255) :
    ∃ t, exec i s = .next t ∧ t.fault = s.fault ∧ Committed s t := by
  obtain ⟨t, ht⟩ := exec_next i s
  refine ⟨t, ht, ?_⟩
  obtain ⟨k, hk, -⟩ | ⟨-, -, hpast, -⟩ | ⟨u', v, hu', hv, rfl⟩ := exec_inv ht
  · rw [hu] at hk; cases hk
  · omega
  · obtain ⟨hfault, hcycles, -⟩ := handlerOf_keeps hu'
    obtain ⟨p, rfl, -⟩ := sequence_ok hv
    exact ⟨hfault, congrArg (· + 1) hcycles⟩

end

/-! ### The first fault of a step -/

section
variable {s t : State} {k : FaultKind}

/-- Some answer of R207's order always applies. -/
theorem exists_firstFault (s : State) : ∃ f, FirstFault s f := by
  by_cases hg : guardFires s = true
  · exact ⟨_, .guard hg⟩
  rw [Bool.not_eq_true] at hg
  by_cases hop : s.opcodeByte ∈ tableOpcodes
  swap
  · exact ⟨_, .decode hg hop⟩
  obtain hN | hN := Nat.lt_or_ge 255 (s.pc.toNat + tableN s.opcodeByte)
  · exact ⟨_, .operandFetch hg hop hN⟩
  by_cases hbad : s.badIndex
  · exact ⟨_, .operandDecode hg hop hN hbad⟩
  by_cases hz : s.zeroDivisor
  · exact ⟨_, .divisor hg hop hN hbad hz⟩
  by_cases hp : s.handlerPastEnd
  · exact ⟨_, .handler hg hop hN hbad hz hp⟩
  obtain hadv | hadv := Nat.lt_or_ge 255 (s.pc.toNat + tableAdv s.opcodeByte)
  · exact ⟨_, .advance hg hop hN hbad hz hp hadv⟩
  · exact ⟨_, .noFault hg hop hN hbad hz hp hadv⟩

/-- A fault that comes first stops the step. -/
theorem step_of_firstFault_some (hr : s.status = .running) (h : FirstFault s (some k)) :
    step s = .next (s.stoppedBy k) := by
  cases h with
  | guard hg => exact step_guard hr hg
  | decode hg hop =>
    rw [mem_tableOpcodes_iff, not_not] at hop
    exact step_fetch_error hr hg (fetch_illegal hop)
  | operandFetch hg hop hpast =>
    obtain ⟨o, ho⟩ := exists_opcode_of_mem hop
    rw [ho, tableN_byte] at hpast
    exact operandFetchFaults o s ⟨hr, hg⟩ ho hpast
  | operandDecode hg hop hN hbad =>
    obtain ⟨i, hi, hstep⟩ := exists_step_eq_exec hr hg hop hN
    exact hstep.trans (exec_badIndex s ((badIndex_iff_of_fetch hi).1 hbad))
  | divisor hg hop hN hbad hz =>
    obtain ⟨i, hi, hstep⟩ := exists_step_eq_exec hr hg hop hN
    have hw := wellFormed_of_not_badIndex hi hbad
    exact hstep.trans (exec_of_error (handlerOf_of_zeroDivisor hi hw hz))
  | handler hg hop hN hbad hz hp =>
    obtain ⟨i, hi, hstep⟩ := exists_step_eq_exec hr hg hop hN
    have hw := wellFormed_of_not_badIndex hi hbad
    exact hstep.trans (exec_of_error ((handlerOf_addressing_iff (opcodeByte_of_fetch hi) hw).2 hp))
  | advance hg hop hN hbad hz hp hadv =>
    obtain ⟨i, hi, hstep⟩ := exists_step_eq_exec hr hg hop hN
    obtain ⟨u, hu⟩ := exists_handlerOf_ok hi (wellFormed_of_not_badIndex hi hbad) hz hp
    rw [opcodeByte_of_fetch hi, tableAdv_byte] at hadv
    have hpc := s.pc.isLt
    exact hstep.trans (exec_of_ok_past hu (by omega) hadv)

/-- Where none applies the step commits. -/
theorem step_of_firstFault_none (hr : s.status = .running) (h : FirstFault s none) :
    ∃ t, step s = .next t ∧ t.fault = s.fault ∧ Committed s t := by
  cases h with
  | noFault hg hop hN hbad hz hp hadv =>
    obtain ⟨i, hi, hstep⟩ := exists_step_eq_exec hr hg hop hN
    obtain ⟨u, hu⟩ := exists_handlerOf_ok hi (wellFormed_of_not_badIndex hi hbad) hz hp
    rw [opcodeByte_of_fetch hi, tableAdv_byte] at hadv
    rw [hstep]
    exact exec_commits_of_ok hu hadv

/-- A record that a step writes names the fault that came first. -/
theorem firstFault_of_step_fault (hnone : s.fault = none) (h : step s = .next t)
    (hk : t.fault = some ⟨k, s.pc⟩) : FirstFault s (some k) := by
  obtain ⟨hr, -⟩ := step_cases h
  obtain ⟨f, hf⟩ := exists_firstFault s
  cases f with
  | none =>
    obtain ⟨t', ht', hkept, -⟩ := step_of_firstFault_none hr hf
    cases h.symm.trans ht'
    exact absurd (hk.symm.trans (hkept.trans hnone)) nofun
  | some k' =>
    cases h.symm.trans (step_of_firstFault_some hr hf)
    cases hk
    exact hf

/-- The record after the step of a state whose first fault is `k`. -/
theorem fault_of_firstFault (hr : s.status = .running) (h : step s = .next t) (hf : FirstFault s (some k)) :
    t.fault = some ⟨k, s.pc⟩ := by
  cases h.symm.trans (step_of_firstFault_some hr hf)
  rfl

end

/-- Settles O13, by the order's seven points, one case of the relation each. -/
theorem faultPriority : Obligations.FaultPriority := by
  unfold Obligations.FaultPriority
  intro s hr hnone
  obtain ⟨f, hf⟩ := exists_firstFault s
  refine ⟨f, hf, ?_⟩
  cases f with
  | some k => exact step_of_firstFault_some hr hf
  | none =>
    obtain ⟨t, ht, hkept, hc⟩ := step_of_firstFault_none hr hf
    exact ⟨t, ht, hkept.trans hnone, hc⟩

/-- Settles O12: a step that leaves a record took a fault, since a commit keeps the record as it was. -/
theorem faultsArePrecise : Obligations.FaultsArePrecise := by
  unfold Obligations.FaultsArePrecise
  intro s t hnone h hfault
  obtain ⟨k, rfl⟩ | ⟨-, i, -, -, hkept, -⟩ := step_fault_or_commit h
  · exact ⟨k, rfl⟩
  · exact absurd (hkept.trans hnone) hfault

/-! ### AddressingFault and IllegalInstruction -/

/-- The cases of R201 all stand at an opcode of the table. -/
theorem mem_tableOpcodes_of_addressingCase {s : State} (h : s.addressingCase) : s.opcodeByte ∈ tableOpcodes := by
  have mem_of_sub {l : List Byte} (hop : s.opcodeByte ∈ l) (hl : l ⊆ tableOpcodes) :
      s.opcodeByte ∈ tableOpcodes := hl hop
  obtain ⟨hop, -⟩ | ⟨hop, -⟩ | ⟨hop, -⟩ | ⟨hop, -⟩ | ⟨hop, -⟩ | ⟨hop, -⟩ | ⟨hop, -⟩ | ⟨hop, -⟩ | ⟨hop, -⟩ := h
  exacts [hop, mem_of_sub hop (by decide), mem_of_sub hop (by decide),
    mem_of_sub (List.mem_singleton.2 hop) (by decide), mem_of_sub (List.mem_singleton.2 hop) (by decide),
    mem_of_sub (List.mem_singleton.2 hop) (by decide), mem_of_sub (List.mem_singleton.2 hop) (by decide),
    mem_of_sub hop (by decide), mem_of_sub hop (by decide)]

/-- The cases of R201 are the three points of R207's order that answer AddressingFault. -/
theorem addressingCase_iff {s : State} (hop : s.opcodeByte ∈ tableOpcodes) :
    s.addressingCase ↔ 255 < s.pc.toNat + tableN s.opcodeByte ∨ s.handlerPastEnd ∨
      255 < s.pc.toNat + tableAdv s.opcodeByte := by
  have hlt := s.pc.isLt
  obtain ⟨o, ho⟩ := exists_opcode_of_mem hop
  rw [State.addressingCase, State.handlerPastEnd, ho, tableN_byte, tableAdv_byte]
  cases o <;> simp [tableOpcodes, Opcode.byte, Opcode.operandCount, Opcode.adv]
  case jeq | jne => by_cases hfl : s.fl = .equal <;> simp [hfl] <;> omega
  all_goals omega

/-- Settles O14: the record names the first fault, and R201's cases are the order's AddressingFault points. -/
theorem addressingFaultCases : Obligations.AddressingFaultCases := by
  unfold Obligations.AddressingFaultCases
  rintro s t ⟨hr, hg⟩ hnone h
  refine ⟨fun hk => ?_, fun hop hpast => ?_, fun hcase hN hbad => ?_, fun hcase hN hbad hz => ?_,
    fun hcase hbad hz => ?_⟩
  · cases firstFault_of_step_fault hnone h hk with
    | operandFetch _ hop hpast => exact (addressingCase_iff hop).2 (.inl hpast)
    | handler _ hop _ _ _ hp => exact (addressingCase_iff hop).2 (.inr (.inl hp))
    | advance _ hop _ _ _ _ hadv => exact (addressingCase_iff hop).2 (.inr (.inr hadv))
  · exact fault_of_firstFault hr h (.operandFetch hg hop hpast)
  · exact fault_of_firstFault hr h (.operandDecode hg (mem_tableOpcodes_of_addressingCase hcase) hN hbad)
  · exact fault_of_firstFault hr h (.divisor hg (mem_tableOpcodes_of_addressingCase hcase) hN hbad hz)
  · have hop := mem_tableOpcodes_of_addressingCase hcase
    obtain hN | hN := Nat.lt_or_ge 255 (s.pc.toNat + tableN s.opcodeByte)
    · exact fault_of_firstFault hr h (.operandFetch hg hop hN)
    by_cases hp : s.handlerPastEnd
    · exact fault_of_firstFault hr h (.handler hg hop hN hbad hz hp)
    · have hadv := (((addressingCase_iff hop).1 hcase).resolve_left hN.not_gt).resolve_left hp
      exact fault_of_firstFault hr h (.advance hg hop hN hbad hz hp hadv)

/-- Settles O15: the lookup is the second point of the order, before any operand byte, and the only one of its kind. -/
theorem illegalInstructionFault : Obligations.IllegalInstructionFault := by
  unfold Obligations.IllegalInstructionFault
  refine ⟨fun s ⟨hr, hg⟩ hop => step_of_firstFault_some hr (.decode hg hop), fun s t hnone h hk => ?_, by decide⟩
  cases firstFault_of_step_fault hnone h hk with
  | decode _ hop => exact hop

/-! ### DivisionByZero and RegisterIndexFault -/

/-- Of an instruction's faults, the advance's is AddressingFault, so a record of another kind is the handler's. -/
theorem handlerOf_error_of_fault {i : Instr} {s t : State} {k : FaultKind} (hnone : s.fault = none)
    (h : exec i s = .next t) (hk : t.fault = some ⟨k, s.pc⟩) (hne : k ≠ .addressing) : handlerOf i s = .error k := by
  obtain ⟨k', hk', rfl⟩ | ⟨-, -, -, -, rfl⟩ | ⟨u, v, hu, hv, rfl⟩ := exec_inv h
  · cases hk; exact hk'
  · cases hk; exact absurd rfl hne
  · obtain ⟨hfault, -⟩ := handlerOf_keeps hu
    obtain ⟨p, rfl, -⟩ := sequence_ok hv
    exact absurd (hk.symm.trans (hfault.trans hnone)) nofun

/-- Settles O16: DIV's handler raises it after both operands, and no other handler does. -/
theorem divisionByZeroFault : Obligations.DivisionByZeroFault := by
  unfold Obligations.DivisionByZeroFault
  obtain ⟨-, -, hzero, -⟩ := divRule
  refine ⟨hzero, fun i s t hnone h hk => ?_⟩
  obtain ⟨hkind, -⟩ | ⟨-, hdiv⟩ | ⟨hkind, -⟩ := handlerOf_error (handlerOf_error_of_fault hnone h hk nofun)
  · cases hkind
  · exact hdiv
  · cases hkind

/-- An instruction that is not well formed holds a register operand byte of 5..255. -/
theorem exists_registerByte_of_not_wellFormed {i : Instr} (h : i.wellFormed = false) :
    ∃ b, b ∈ i.registerBytes ∧ 5 ≤ b.toNat := by
  obtain ⟨b, hb, hbad⟩ := List.all_eq_false.1 h
  rw [namesRegister, decide_eq_true_eq] at hbad
  exact ⟨b, hb, by omega⟩

/-- RegisterIndexFault comes only from a register operand byte of 5..255. -/
theorem exists_registerByte_of_fault {i : Instr} {s t : State} (hnone : s.fault = none) (h : exec i s = .next t)
    (hk : t.fault = some ⟨.registerIndex, s.pc⟩) : ∃ b, b ∈ i.registerBytes ∧ 5 ≤ b.toNat := by
  obtain ⟨-, hbad⟩ | ⟨hkind, -⟩ | ⟨hkind, -⟩ := handlerOf_error (handlerOf_error_of_fault hnone h hk nofun)
  · exact exists_registerByte_of_not_wellFormed hbad
  · cases hkind
  · cases hkind

/-- Settles O17: handlers decode every register operand first, and LDI's immediate is not one. -/
theorem registerIndexFault : Obligations.RegisterIndexFault := by
  unfold Obligations.RegisterIndexFault
  refine ⟨fun i s b => faultsWith_registerIndex s, fun i s t => exists_registerByte_of_fault, fun s r v h => ?_⟩
  obtain ⟨b, hb, h5⟩ := exists_registerByte_of_fault rfl h rfl
  obtain rfl := List.mem_singleton.1 hb
  have := byte_toNat_le r
  omega

/-! ### The cycle limit -/

theorem guardFires_iff (s : State) : guardFires s = true ↔ ∃ limit, s.cycleLimit = some limit ∧ limit ≤ s.cycles := by
  unfold guardFires
  cases s.cycleLimit <;> simp

/-- At the limit nothing is fetched: the guard stops the step. -/
theorem step_of_limit_reached {s : State} {limit : Nat} (hr : s.status = .running) (hl : s.cycleLimit = some limit)
    (hge : limit ≤ s.cycles) : step s = .next (s.stoppedBy .cycleLimitExceeded) :=
  step_guard hr ((guardFires_iff s).2 ⟨limit, hl, hge⟩)

/-- What every step keeps holds along a run. -/
theorem reaches_keeps {I : State → Prop} (hstep : ∀ s t, I s → step s = .next t → I t) {s t : State}
    (h : Reaches s t) (hs : I s) : I t := by
  induction h with
  | refl => exact hs
  | tail _ _ hlast ih => exact hstep _ _ ih hlast

/-- The limit is `limit` and the count has not passed it. -/
def WithinLimit (limit : Nat) (s : State) : Prop := s.cycleLimit = some limit ∧ s.cycles ≤ limit

/-- A step that commits started below the limit, where the guard does not fire. -/
theorem step_keeps_withinLimit (limit : Nat) (s t : State) (hs : WithinLimit limit s) (h : step s = .next t) :
    WithinLimit limit t := by
  obtain ⟨hl, hle⟩ := hs
  obtain ⟨k, rfl⟩ | ⟨hg, i, -, -, -, hc, hlt, -⟩ := step_fault_or_commit h
  · exact ⟨hl, hle⟩
  · have hbelow : ¬ limit ≤ s.cycles := fun hge => by
      rw [(guardFires_iff s).2 ⟨limit, hl, hge⟩] at hg
      cases hg
    exact ⟨hlt.trans hl, by omega⟩

/-- A HLT below the limit, at an address up to 254, halts without a fault. -/
theorem step_hlt_cleanHalt {s : State} (hr : s.status = .running) (hnone : s.fault = none)
    (hg : guardFires s = false) (hop : s.opcodeByte = 0x01#8) (hpc : s.pc.toNat ≤ 254) :
    ∃ t, step s = .next t ∧ t.CleanHalt ∧ Committed s t := by
  have hi : fetch s = .ok .hlt := fetch_of_opcode (o := .hlt) hop (Nat.le_succ_of_le hpc)
  obtain ⟨-, hhlt, -⟩ := hltRule
  exact ⟨_, (step_fetch_ok hr hg hi).trans (hhlt s hpc), ⟨rfl, hnone⟩, rfl⟩

/-- Settles O18: the guard comes first in the step, so a commit starts below the limit and leaves the count within it. -/
theorem cycleLimitGuard : Obligations.CycleLimitGuard := by
  unfold Obligations.CycleLimitGuard
  refine ⟨fun s limit => step_of_limit_reached, fun s t hnone h hk => ?_, fun limit s t hl hle h => ?_,
    fun s hr hl => step_of_limit_reached hr hl (Nat.zero_le _), fun s hr hnone hl hop hpc => ?_⟩
  · cases firstFault_of_step_fault hnone h hk with
    | guard hg => exact (guardFires_iff s).1 hg
  · obtain ⟨-, hbound⟩ := reaches_keeps (step_keeps_withinLimit limit) h ⟨hl, hle⟩
    exact hbound
  · have hg : guardFires s = false := by
      rw [← Bool.not_eq_true, guardFires_iff, hl]
      simp
    obtain ⟨t, ht, hclean, hc⟩ := step_hlt_cleanHalt hr hnone hg hop hpc
    exact ⟨t, ht, hclean, (congrArg some hc).trans hl.symm⟩

end Sys2Proof.Machine
end

section
/-! PROOFS. The encoding: the decoder against the encoder, and the illegal bytes (30_encoding.md R70 to R77). -/

namespace Sys2Proof

/-! ### Decoding and encoding -/

/-- A source decodes to `i` exactly when it gives the bytes of `i`'s encoding, one by one. -/
theorem decodeFrom_ok_iff (rd : Nat → Option Byte) (i : Instr) :
    decodeFrom rd = .ok i ↔ ∀ k (h : k < (encode i).length), rd k = some (encode i)[k] := by
  have hsplit : (∀ k (h : k < (encode i).length), rd k = some (encode i)[k]) ↔ rd 0 = some i.opcode.byte ∧
      ∀ k (h : k < i.operandBytes.length), rd (k + 1) = some i.operandBytes[k] := by
    constructor
    · intro h
      exact ⟨h 0 (Nat.succ_pos _), fun k hk => h (k + 1) (Nat.succ_lt_succ hk)⟩
    · rintro ⟨h0, hops⟩ (_ | k) hk
      · exact h0
      · exact hops k (Nat.lt_of_succ_lt_succ hk)
  rw [hsplit]
  constructor
  · intro h
    unfold decodeFrom at h
    split at h
    · cases h
    · next b hb =>
      split at h
      · cases h
      · next o ho =>
        obtain ⟨rfl, hops⟩ := (decodeOperands_ok_iff rd o i).1 h
        exact ⟨by rw [hb, (ofByte_eq_some_iff b _).1 ho], hops⟩
  · rintro ⟨h0, hops⟩
    simp only [decodeFrom, h0, ofByte_byte]
    exact (decodeOperands_ok_iff rd i.opcode i).2 ⟨rfl, hops⟩

/-- `decode` is `decodeFrom` on the list, with the bytes past the instruction left over. -/
theorem decode_ok_iff (bs : List Byte) (i : Instr) (rest : List Byte) :
    decode bs = .ok (i, rest) ↔ decodeFrom (fun k => bs[k]?) = .ok i ∧ bs.drop i.opcode.length = rest := by
  unfold decode
  split
  · next r hr => simp [hr]
  · next j hj =>
    simp only [hj, Except.ok.injEq, Prod.mk.injEq]
    constructor <;> rintro ⟨rfl, h⟩ <;> exact ⟨rfl, h⟩

/-- A list decodes to `i` with `rest` left exactly when it is `i`'s encoding and then `rest`. -/
theorem decode_eq_ok_iff_append (bs : List Byte) (i : Instr) (rest : List Byte) :
    decode bs = .ok (i, rest) ↔ bs = encode i ++ rest := by
  rw [decode_ok_iff, decodeFrom_ok_iff, ← List.prefix_iff_getElem?, ← encode_length]
  constructor
  · rintro ⟨⟨tail, rfl⟩, rfl⟩
    rw [List.drop_left]
  · rintro rfl
    exact ⟨List.prefix_append _ _, List.drop_left⟩

/-- Settles O1, by the characterisation of what a list decodes to. -/
theorem decodeInvertsEncode : Obligations.DecodeInvertsEncode :=
  fun i rest => (decode_eq_ok_iff_append _ i rest).2 rfl

/-- Settles O2, by the other direction of the same characterisation. -/
theorem encodeInvertsDecode : Obligations.EncodeInvertsDecode :=
  fun bs i rest => (decode_eq_ok_iff_append bs i rest).1

/-- Settles O3: each word is its instruction's encoding. -/
theorem specWordsDecode : Obligations.SpecWordsDecode := by
  unfold Obligations.SpecWordsDecode
  simp only [decode_eq_ok_iff_append]
  decide

/-! ### Illegal bytes -/

/-- The lookup alone decides whether a byte is an illegal opcode: a missing operand byte is another answer. -/
theorem decode_cons_illegal_iff (b : Byte) (rest : List Byte) :
    decode (b :: rest) = .error (.illegalOpcode b) ↔ Opcode.ofByte b = none := by
  unfold decode decodeFrom
  simp only [List.getElem?_cons_zero]
  cases Opcode.ofByte b with
  | none => simp
  | some o =>
    simp only [reduceCtorEq, iff_false]
    cases hd : decodeOperands (fun k => (b :: rest)[k]?) o with
    | ok i => simp
    | error r =>
      obtain ⟨k, rfl, -⟩ := decodeOperands_error hd
      simp

end Sys2Proof

namespace Sys2Proof.Machine

/-- The byte values of the table are seventeen of 0..255. -/
theorem length_filter_mem_tableOpcodes :
    ((List.range 256).filter (fun n => decide (BitVec.ofNat 8 n ∈ tableOpcodes))).length = 17 := by
  have hperm : ((List.range 256).filter (fun n => decide (BitVec.ofNat 8 n ∈ tableOpcodes))).Perm
      (tableOpcodes.map BitVec.toNat) := by
    refine (List.perm_ext_iff_of_nodup (List.nodup_range.filter _) (by decide)).2 fun n => ?_
    simp only [List.mem_filter, List.mem_range, decide_eq_true_eq, List.mem_map]
    constructor
    · rintro ⟨hn, hmem⟩
      exact ⟨_, hmem, (BitVec.toNat_ofNat n 8).trans (Nat.mod_eq_of_lt hn)⟩
    · rintro ⟨b, hmem, rfl⟩
      exact ⟨b.isLt, by rwa [BitVec.ofNat_toNat, BitVec.setWidth_eq]⟩
  exact hperm.length_eq

/-- Settles O4: the table's bytes are the lookup's keys, and 239 is what they leave of 256. -/
theorem illegalBytesAreExactlyTheOthers : Obligations.IllegalBytesAreExactlyTheOthers := by
  unfold Obligations.IllegalBytesAreExactlyTheOthers
  refine ⟨fun b rest => ?_, ?_⟩
  · rw [decode_cons_illegal_iff, mem_tableOpcodes_iff, not_not]
  · have hsum := List.length_eq_length_filter_add (l := List.range 256)
      (fun n => decide (BitVec.ofNat 8 n ∈ tableOpcodes))
    rw [List.length_range, length_filter_mem_tableOpcodes] at hsum
    simp only [← decide_not] at hsum
    omega

end Sys2Proof.Machine
end

section
/-! PROOFS. The assembly text (30_encoding.md R78). -/

namespace Sys2Proof.Machine

/-! ### Digits -/

/-- A decimal digit reads back, and is none of the characters that mean something else in a statement. -/
theorem digitChar_spec : ∀ d < 10,
    digitValue 10 (digitChar d) = some d ∧ digitChar d ≠ 'x' ∧ digitChar d ≠ ' ' ∧ digitChar d ≠ ',' := by decide

/-- A digit in front multiplies what was read so far by ten and adds itself. -/
theorem numberFrom_digitChar (acc : Nat) {d : Nat} (hd : d < 10) (cs : List Char) :
    numberFrom 10 acc (digitChar d :: cs) = numberFrom 10 (acc * 10 + d) cs := by
  obtain ⟨hval, -⟩ := digitChar_spec d hd
  simp [numberFrom, hval]

theorem byteNumber_of_numberFrom {base : Nat} {cs : List Char} {b : Byte} (hne : cs ≠ [])
    (h : numberFrom base 0 cs = some b.toNat) : byteNumber base cs = some b := by
  cases cs with
  | nil => exact absurd rfl hne
  | cons c cs => simp [byteNumber, h, b.isLt]

/-- Text without an `x` is read as decimal. -/
theorem parseImmediate_of_no_x {cs : List Char} (h : 'x' ∉ cs) : parseImmediate cs = byteNumber 10 cs := by
  unfold parseImmediate
  split
  · simp at h
  · rfl

/-- The decimal text of a byte is its digits, at least one, and they stand for the byte. -/
theorem decimalText_spec (b : Byte) : ∃ ds : List Nat, decimalText b = ds.map digitChar ∧ ds ≠ [] ∧ (∀ d ∈ ds, d < 10) ∧
    numberFrom 10 0 (ds.map digitChar) = some b.toNat := by
  have hlt := b.isLt
  unfold decimalText
  dsimp only
  split
  · next h1 =>
    refine ⟨[b.toNat], rfl, List.cons_ne_nil _ _, by simpa using h1, ?_⟩
    simp only [List.map_cons, numberFrom_digitChar _ h1]
    simp [numberFrom]
  · split
    · next h1 h2 =>
      have hd1 : b.toNat / 10 < 10 := by omega
      have hd0 : b.toNat % 10 < 10 := by omega
      refine ⟨[b.toNat / 10, b.toNat % 10], rfl, List.cons_ne_nil _ _, by simp [hd1, hd0], ?_⟩
      simp only [List.map_cons, numberFrom_digitChar _ hd1, numberFrom_digitChar _ hd0]
      exact congrArg some (by omega)
    · next h1 h2 =>
      have hd2 : b.toNat / 100 < 10 := by omega
      have hd1 : b.toNat / 10 % 10 < 10 := by omega
      have hd0 : b.toNat % 10 < 10 := by omega
      refine ⟨[b.toNat / 100, b.toNat / 10 % 10, b.toNat % 10], rfl, List.cons_ne_nil _ _, by simp [hd2, hd1, hd0], ?_⟩
      simp only [List.map_cons, numberFrom_digitChar _ hd2, numberFrom_digitChar _ hd1, numberFrom_digitChar _ hd0]
      exact congrArg some (by omega)

/-! ### Operand texts -/

/-- `cs` can stand as an operand of a statement: it is not empty, and no character of it separates. -/
def IsOperandText (cs : List Char) : Prop := cs ≠ [] ∧ ' ' ∉ cs ∧ ',' ∉ cs

/-- A byte's decimal text is an operand that reads back as the byte. -/
theorem parseImmediate_decimalText (b : Byte) :
    IsOperandText (decimalText b) ∧ parseImmediate (decimalText b) = some b := by
  obtain ⟨ds, htext, hne, hdigits, hnum⟩ := decimalText_spec b
  have hchars : ∀ c ∈ ds.map digitChar, c ≠ 'x' ∧ c ≠ ' ' ∧ c ≠ ',' := by
    intro c hc
    obtain ⟨d, hd, rfl⟩ := List.mem_map.1 hc
    obtain ⟨-, hother⟩ := digitChar_spec d (hdigits d hd)
    exact hother
  have hx : 'x' ∉ ds.map digitChar := fun h => by simpa using hchars _ h
  have hspace : ' ' ∉ ds.map digitChar := fun h => by simpa using hchars _ h
  have hcomma : ',' ∉ ds.map digitChar := fun h => by simpa using hchars _ h
  have hne' : ds.map digitChar ≠ [] := by simpa using hne
  rw [htext, parseImmediate_of_no_x hx]
  exact ⟨⟨hne', hspace, hcomma⟩, byteNumber_of_numberFrom hne' hnum⟩

/-- A register's text is an operand that reads back as the register's byte. -/
theorem parseRegister_registerText (r : Reg) : ∃ cs, registerText r.byte = some cs ∧ IsOperandText cs ∧
    parseRegister cs = some r.byte := by
  have h4 := byte_toNat_le r
  obtain ⟨hval, -, hspace, hcomma⟩ := digitChar_spec r.byte.toNat (by omega)
  have hname : namesRegister r.byte = true := (namesRegister_iff _).2 ⟨r, rfl⟩
  refine ⟨['R', digitChar r.byte.toNat], by rw [registerText, if_pos hname], ⟨List.cons_ne_nil _ _, ?_, ?_⟩, ?_⟩
  · simp [hspace.symm]
  · simp [hcomma.symm]
  · simp [parseRegister, hval, h4]

/-! ### Statements -/

theorem trim_of_ends {cs : List Char} (hhead : cs.head? ≠ some ' ') (hlast : cs.getLast? ≠ some ' ') : trim cs = cs := by
  have hdrop {l : List Char} (h : l.head? ≠ some ' ') : l.dropWhile (· == ' ') = l := by
    cases l with
    | nil => rfl
    | cons c l => exact List.dropWhile_cons_of_neg (by simpa using h)
  rw [trim, hdrop hhead, hdrop (by rwa [List.head?_reverse]), List.reverse_reverse]

theorem trim_of_no_space {cs : List Char} (h : ' ' ∉ cs) : trim cs = cs :=
  trim_of_ends (fun hh => h (List.mem_of_head? hh)) (fun hl => h (List.mem_of_getLast? hl))

@[simp] theorem opcodeOfText_mnemonicText (o : Opcode) : opcodeOfText (mnemonicText o) = some o := by
  cases o <;> decide

theorem mnemonicText_ne_nil (o : Opcode) : mnemonicText o ≠ [] := by cases o <;> decide

theorem space_not_mem_mnemonicText (o : Opcode) : ' ' ∉ mnemonicText o := by cases o <;> decide

/-- The same in the form the parser tests. -/
theorem ne_space_of_mem_mnemonicText (o : Opcode) : ∀ c ∈ mnemonicText o, (c != ' ') = true := by
  intro c hc
  rw [bne_iff_ne]
  rintro rfl
  exact space_not_mem_mnemonicText o hc

/-- A mnemonic alone is read as the mnemonic with the one empty operand text. -/
theorem parseStatement_mnemonic (o : Opcode) : parseStatement (mnemonicText o) = parseOperands o [[]] := by
  have hall := ne_space_of_mem_mnemonicText o
  have htake : (mnemonicText o).takeWhile (· != ' ') = mnemonicText o := List.takeWhile_eq_self_iff.2 hall
  have hdrop : (mnemonicText o).dropWhile (· != ' ') = [] := List.dropWhile_eq_nil_iff.2 hall
  simp only [parseStatement, trim_of_no_space (space_not_mem_mnemonicText o), htake, hdrop, opcodeOfText_mnemonicText]
  rfl

theorem space_not_mem_intercalate {ops : List (List Char)} (hops : ∀ t ∈ ops, IsOperandText t) :
    ' ' ∉ [','].intercalate ops := by
  induction ops with
  | nil => exact List.not_mem_nil
  | cons t ts ih =>
    obtain ⟨ht, hts⟩ := List.forall_mem_cons.1 hops
    obtain ⟨-, hspace, -⟩ := ht
    cases ts with
    | nil => rwa [List.intercalate_singleton]
    | cons t' ts =>
      rw [List.intercalate_cons_cons]
      simp [hspace, ih hts]

/-- Such a statement neither starts nor ends with a space. -/
theorem trim_statement (o : Opcode) {rest : List Char} (hne : rest ≠ []) (hspace : ' ' ∉ rest) :
    trim (mnemonicText o ++ ' ' :: rest) = mnemonicText o ++ ' ' :: rest := by
  refine trim_of_ends (fun hh => space_not_mem_mnemonicText o ?_) (fun hl => hspace ?_)
  · rw [List.head?_append_of_ne_nil _ (mnemonicText_ne_nil o)] at hh
    exact List.mem_of_head? hh
  · rw [List.getLast?_append_of_ne_nil _ (List.cons_ne_nil _ _), List.getLast?_cons_of_ne_nil hne] at hl
    exact List.mem_of_getLast? hl

/-- The parser splits at the commas and drops the space in front of the first operand. -/
theorem splitOn_operands (t : List Char) (ts : List (List Char)) (hops : ∀ t' ∈ t :: ts, IsOperandText t') :
    ((' ' :: [','].intercalate (t :: ts)).splitOn ',').map trim = t :: ts := by
  have htrim : ∀ t' ∈ t :: ts, trim t' = t' := fun t' ht' => by
    obtain ⟨-, hspace, -⟩ := hops t' ht'
    exact trim_of_no_space hspace
  have hcomma : ∀ t' ∈ (' ' :: t) :: ts, ',' ∉ t' := by
    obtain ⟨⟨-, -, ht⟩, hts⟩ := List.forall_mem_cons.1 hops
    refine List.forall_mem_cons.2 ⟨by simp [ht], fun t' ht' => ?_⟩
    obtain ⟨-, -, hcomma⟩ := hts t' ht'
    exact hcomma
  have hspaced : ' ' :: [','].intercalate (t :: ts) = [','].intercalate ((' ' :: t) :: ts) := by
    cases ts <;> rfl
  calc ((' ' :: [','].intercalate (t :: ts)).splitOn ',').map trim
      = ((' ' :: t) :: ts).map trim := by rw [hspaced, List.splitOn_intercalate _ hcomma (List.cons_ne_nil _ _)]
    _ = (t :: ts).map trim := rfl
    _ = t :: ts := by rw [List.map_congr_left htrim, List.map_id']

/-- A mnemonic, a space and operand texts with commas between are read as that mnemonic and those operands. -/
theorem parseStatement_operands (o : Opcode) (t : List Char) (ts : List (List Char))
    (hops : ∀ t' ∈ t :: ts, IsOperandText t') :
    parseStatement (mnemonicText o ++ ' ' :: [','].intercalate (t :: ts)) = parseOperands o (t :: ts) := by
  have hall := ne_space_of_mem_mnemonicText o
  have hne : [','].intercalate (t :: ts) ≠ [] := by
    obtain ⟨⟨hne, -⟩, -⟩ := List.forall_mem_cons.1 hops
    cases ts <;> simp [List.intercalate_cons_cons, hne]
  rw [parseStatement, trim_statement o hne (space_not_mem_intercalate hops),
    List.takeWhile_append_of_pos hall, List.dropWhile_append_of_pos hall]
  simp [splitOn_operands t ts hops]

/-! ### Instructions -/

/-- The text of a one-register form reads back. -/
theorem asmText_reads_back_one {mk : Byte → Instr} (r : Reg)
    (htext : asmText (mk r.byte) = (registerText r.byte).bind fun ta => some (mnemonicText (mk 0#8).opcode ++ ' ' :: ta))
    (hparse : ∀ ops, parseOperands (mk 0#8).opcode ops = parseOne mk ops) :
    ∃ text, asmText (mk r.byte) = some text ∧ parseStatement text = some (mk r.byte) := by
  obtain ⟨ta, hta, hop, hread⟩ := parseRegister_registerText r
  refine ⟨_, htext.trans (by rw [hta]; rfl), ?_⟩
  have h := parseStatement_operands (mk 0#8).opcode ta [] (by simpa using hop)
  rw [List.intercalate_singleton] at h
  rw [h, hparse, parseOne, hread]
  rfl

/-- The text of a two-operand form reads back, if its second operand's does. -/
theorem asmText_reads_back_two {mk : Byte → Byte → Instr} {second : List Char → Option Byte} (r : Reg) {b : Byte}
    {tb : List Char} (hb : IsOperandText tb) (hsecond : second tb = some b)
    (htext : asmText (mk r.byte b) =
      (registerText r.byte).bind fun ta => some (mnemonicText (mk 0#8 0#8).opcode ++ ' ' :: ta ++ ',' :: tb))
    (hparse : ∀ ops, parseOperands (mk 0#8 0#8).opcode ops = parseTwo mk second ops) :
    ∃ text, asmText (mk r.byte b) = some text ∧ parseStatement text = some (mk r.byte b) := by
  obtain ⟨ta, hta, hop, hread⟩ := parseRegister_registerText r
  refine ⟨_, htext.trans (by rw [hta]; rfl), ?_⟩
  have h := parseStatement_operands (mk 0#8 0#8).opcode ta [tb] (by simp [hop, hb])
  rw [List.intercalate_cons_cons, List.intercalate_singleton] at h
  simp only [List.append_assoc, List.cons_append, List.nil_append] at h ⊢
  rw [h, hparse, parseTwo, hread, hsecond]
  rfl

/-- Settles O6: no operand text holds a space or a comma, so a statement splits where its text was put together, and
each operand reads back. -/
theorem assemblyTextReadsBack : Obligations.AssemblyTextReadsBack := by
  unfold Obligations.AssemblyTextReadsBack
  intro i hw
  cases i <;> simp only [Instr.wellFormed, Instr.registerBytes, List.all_cons, List.all_nil, Bool.and_true,
    Bool.and_eq_true, namesRegister_iff] at hw
  case hlt => exact ⟨_, rfl, parseStatement_mnemonic .hlt⟩
  case ret => exact ⟨_, rfl, parseStatement_mnemonic .ret⟩
  case push | pop | prn | call | jmp | jeq | jne | inc | dec =>
    obtain ⟨r, rfl⟩ := hw
    exact asmText_reads_back_one r rfl fun _ => rfl
  case ldi b =>
    obtain ⟨r, rfl⟩ := hw
    obtain ⟨hop, hread⟩ := parseImmediate_decimalText b
    exact asmText_reads_back_two r hop hread rfl fun _ => rfl
  case add | sub | mul | div | cmp =>
    obtain ⟨⟨ra, rfl⟩, rb, rfl⟩ := hw
    obtain ⟨tb, htb, hop, hread⟩ := parseRegister_registerText rb
    exact asmText_reads_back_two ra hop hread (by rw [asmText, htb]; rfl) fun _ => rfl

end Sys2Proof.Machine
end

section
/-! PROOFS. What an instruction and a step leave alone: the frames, SP, memory and the invariant (10_state.md R22, R27, R36;
20_memory.md R52, R61; 43_stack.md R160). -/

namespace Sys2Proof.Machine

/-! ### The register file -/

theorem regs_ext {x y : Regs} (h : ∀ r, x.get r = y.get r) : x = y := by
  cases x
  cases y
  rw [Regs.mk.injEq]
  exact ⟨h .r0, h .r1, h .r2, h .r3, h .r4⟩

/-- The operand bytes that name a register the instruction writes. -/
def writtenBytes (i : Instr) : List Byte :=
  match i with
  | .hlt | .ret | .push _ | .prn _ | .call _ | .jmp _ | .jeq _ | .jne _ | .cmp _ _ => []
  | .pop a | .inc a | .dec a | .ldi a _ | .add a _ | .sub a _ | .mul a _ | .div a _ => [a]

/-- A handler stages a write to no other register. -/
theorem handlerOf_getReg {i : Instr} {s u : State} (h : handlerOf i s = .ok u) {r : Reg}
    (hr : r.byte ∉ writtenBytes i) : u.getReg r = s.getReg r := by
  have hw : i.wellFormed = true := by
    by_contra hbad
    rw [handlerOf_badIndex s (by simpa using hbad)] at h
    cases h
  have hset {q : Reg} (v : Byte) (hq : r.byte ∉ [q.byte]) : (s.regs.set q v).get r = s.regs.get r :=
    get_set_other s.regs q r v (by rintro rfl; exact hq (List.mem_singleton.2 rfl))
  cases i <;> simp only [Instr.wellFormed, Instr.registerBytes, List.all_cons, List.all_nil, Bool.and_true,
    Bool.and_eq_true, namesRegister_iff] at hw
  case hlt | ret =>
    simp only [handlerOf, hltHandler_eq, retHandler_eq] at h
    split at h <;> cases h
    rfl
  case push | call =>
    obtain ⟨q, rfl⟩ := hw
    simp only [handlerOf, pushHandler_byte_eq, callHandler_byte] at h
    split at h <;> cases h
    rfl
  case prn | jmp =>
    obtain ⟨q, rfl⟩ := hw
    simp only [handlerOf, prnHandler_byte, jmpHandler_byte] at h
    cases h
    rfl
  case cmp =>
    obtain ⟨⟨q, rfl⟩, q', rfl⟩ := hw
    rw [handlerOf, cmpHandler_byte] at h
    cases h
    rfl
  case jeq | jne =>
    obtain ⟨q, rfl⟩ := hw
    rw [handlerOf, branchHandler_byte] at h
    (repeat' split at h) <;> cases h <;> rfl
  case pop =>
    obtain ⟨q, rfl⟩ := hw
    rw [handlerOf, popHandler_byte] at h
    split at h <;> cases h
    exact hset _ hr
  case inc | dec | ldi =>
    obtain ⟨q, rfl⟩ := hw
    simp only [handlerOf, unaryHandler_byte, ldiHandler_byte] at h
    cases h
    exact hset _ hr
  case add | sub | mul =>
    obtain ⟨⟨q, rfl⟩, q', rfl⟩ := hw
    rw [handlerOf, binaryHandler_byte] at h
    cases h
    exact hset _ hr
  case div =>
    obtain ⟨⟨q, rfl⟩, q', rfl⟩ := hw
    rw [handlerOf, divHandler_byte] at h
    split at h <;> cases h
    exact hset _ hr

/-! ### Frames -/

section
variable {i : Instr} {s t : State} (h : exec i s = .next t)
include h

theorem exec_getReg {r : Reg} (hr : r.byte ∉ writtenBytes i) : t.getReg r = s.getReg r := by
  obtain ⟨k, -, rfl⟩ | ⟨u, -, -, -, rfl⟩ | ⟨u, v, hu, hv, rfl⟩ := exec_inv h
  · rfl
  · rfl
  · obtain ⟨p, rfl, -⟩ := sequence_ok hv
    exact handlerOf_getReg hu hr

theorem exec_sameRegistersBut {a : Byte} (hi : writtenBytes i ⊆ [a]) : SameRegistersBut a s t :=
  fun _ hne => exec_getReg h fun hmem => hne (List.mem_singleton.1 (hi hmem))

theorem exec_regs_same (hi : writtenBytes i = []) : t.regs = s.regs :=
  regs_ext fun _ => exec_getReg h (by rw [hi]; exact List.not_mem_nil)

theorem exec_cycleLimit : t.cycleLimit = s.cycleLimit := by
  obtain ⟨k, -, -, rfl⟩ | ⟨-, -, hlimit, -⟩ := exec_fault_or_commit h
  · rfl
  · exact hlimit

theorem exec_commitOrFault (hi : i ≠ .hlt) : CommitOrFault s t := by
  obtain ⟨k, -, -, rfl⟩ | ⟨hfault, hcycles, -, hstatus, -⟩ := exec_fault_or_commit h
  · exact .inr ⟨k, rfl, rfl, rfl⟩
  · exact .inl ⟨hstatus hi, hfault, hcycles⟩

theorem exec_sameMemory (h1 : i.opcode ≠ .push) (h2 : i.opcode ≠ .call) : SameMemory s t :=
  fun a => congrArg (·.read a) ((exec_effect h).mem_same h1 h2)

end

/-- HLT either halts on a commit that leaves the record, or faults. -/
theorem exec_hlt_commitOrFault {s t : State} (h : exec .hlt s = .next t) :
    CommitOrFault s t ∨ (t.status = .halted ∧ t.fault = s.fault ∧ t.cycles = s.cycles + 1) := by
  obtain ⟨k, -, -, rfl⟩ | ⟨hfault, hcycles, -, -, hhalted⟩ := exec_fault_or_commit h
  · exact .inl (.inr ⟨k, rfl, rfl, rfl⟩)
  · exact .inr ⟨hhalted rfl, hfault, hcycles⟩

/-- Settles O35: each of the seven forms writes the register of byte 1 alone. -/
theorem registerFormsFrame : Obligations.RegisterFormsFrame := by
  unfold Obligations.RegisterFormsFrame
  intro i a b s t hi h
  have he := exec_effect h
  simp only [List.mem_cons, List.not_mem_nil, or_false] at hi
  obtain rfl | rfl | rfl | rfl | rfl | rfl | rfl := hi
  all_goals exact ⟨exec_sameRegistersBut h (List.Subset.refl _), he.fl_same nofun, he.sp_same (by simp [Instr.opcode]),
    exec_sameMemory h nofun nofun, he.out_same nofun, exec_cycleLimit h, exec_commitOrFault h nofun⟩

/-- Settles O36: CMP stages FL alone and PRN out alone. -/
theorem cmpPrnFrame : Obligations.CmpPrnFrame := by
  unfold Obligations.CmpPrnFrame
  intro i a b s t hi h
  have he := exec_effect h
  simp only [List.mem_cons, List.not_mem_nil, or_false] at hi
  obtain rfl | rfl := hi
  · exact ⟨exec_regs_same h rfl, he.sp_same (by simp [Instr.opcode]), exec_sameMemory h nofun nofun, exec_cycleLimit h,
      exec_commitOrFault h nofun, fun _ => he.out_same nofun, nofun⟩
  · exact ⟨exec_regs_same h rfl, he.sp_same (by simp [Instr.opcode]), exec_sameMemory h nofun nofun, exec_cycleLimit h,
      exec_commitOrFault h nofun, nofun, fun _ => he.fl_same nofun⟩

/-- Settles O37: the one store lies at SP - 1, and a fault makes none. -/
theorem storingFormsFrame : Obligations.StoringFormsFrame := by
  unfold Obligations.StoringFormsFrame
  intro i a s t hi h
  have he := exec_effect h
  simp only [List.mem_cons, List.not_mem_nil, or_false] at hi
  obtain rfl | rfl := hi
  all_goals exact ⟨exec_regs_same h rfl, he.fl_same nofun, he.out_same nofun, exec_cycleLimit h,
    exec_commitOrFault h nofun, he.mem_other, fun k hk c => congrArg (·.read c) (he.mem_past k hk)⟩

/-- Settles O38: POP writes the register of byte 1 alone, RET none, and neither stores. -/
theorem poppingFormsFrame : Obligations.PoppingFormsFrame := by
  unfold Obligations.PoppingFormsFrame
  intro i a s t hi h
  have he := exec_effect h
  simp only [List.mem_cons, List.not_mem_nil, or_false] at hi
  obtain rfl | rfl := hi
  · exact ⟨exec_sameRegistersBut h (List.Subset.refl _), nofun, he.fl_same nofun, exec_sameMemory h nofun nofun,
      he.out_same nofun, exec_cycleLimit h, exec_commitOrFault h nofun⟩
  · exact ⟨exec_sameRegistersBut h (List.nil_subset _), fun _ => exec_regs_same h rfl, he.fl_same nofun,
      exec_sameMemory h nofun nofun, he.out_same nofun, exec_cycleLimit h, exec_commitOrFault h nofun⟩

/-- Settles O39: the jumps and HLT stage PC and the run state alone, and HLT alone halts on a commit. -/
theorem jumpHaltFrame : Obligations.JumpHaltFrame := by
  unfold Obligations.JumpHaltFrame
  intro i a s t hi h
  have he := exec_effect h
  have hhlt : i = .hlt → CommitOrFault s t ∨ (t.status = .halted ∧ t.fault = s.fault ∧ t.cycles = s.cycles + 1) := by
    rintro rfl; exact exec_hlt_commitOrFault h
  simp only [List.mem_cons, List.not_mem_nil, or_false] at hi
  obtain rfl | rfl | rfl | rfl := hi
  all_goals exact ⟨exec_regs_same h rfl, he.fl_same nofun, he.sp_same (by simp [Instr.opcode]), exec_sameMemory h nofun nofun,
    he.out_same nofun, exec_cycleLimit h, exec_commitOrFault h, hhlt⟩

/-! ### SP and memory over a step -/

/-- A step that did not take a fault has the effect of the instruction fetched. -/
theorem step_effect {s t : State} (h : step s = .next t) :
    (∃ k, t = takeFault k s) ∨ ∃ i, fetch s = .ok i ∧ ExecEffect i s t := by
  obtain ⟨k, rfl⟩ | ⟨-, i, hi, he, -⟩ := step_fault_or_commit h
  · exact .inl ⟨k, rfl⟩
  · exact .inr ⟨i, hi, exec_effect he⟩

/-- An opcode byte in a list of table bytes fixes the opcode to the list of those opcodes. -/
theorem opcode_mem_iff_of_fetch {i : Instr} {s : State} (hi : fetch s = .ok i) (os : List Opcode) :
    s.opcodeByte ∈ os.map Opcode.byte ↔ i.opcode ∈ os := by
  rw [opcodeByte_of_fetch hi]
  exact List.mem_map_of_injective fun o o' => (byte_injective o o').1

/-- Settles O47: the effect of the instruction fetched, with the opcode read from the byte at PC. -/
theorem stackPointerMoves : Obligations.StackPointerMoves := by
  unfold Obligations.StackPointerMoves
  intro s t h
  obtain ⟨k, rfl⟩ | ⟨i, hi, he⟩ := step_effect h
  · exact ⟨fun _ => rfl, fun _ hc => absurd hc not_committed_takeFault, fun _ hc => absurd hc not_committed_takeFault⟩
  · refine ⟨fun hop => he.sp_same ?_, fun hop => he.sp_push ?_, fun hop => he.sp_pop ?_⟩
    · exact fun hmem => hop ((opcode_mem_iff_of_fetch hi [.push, .pop, .call, .ret]).2 hmem)
    · exact (opcode_mem_iff_of_fetch hi [.push, .call]).1 hop
    · exact (opcode_mem_iff_of_fetch hi [.pop, .ret]).1 hop

/-- Settles O48: only the effect of PUSH and CALL holds a store, at the address below SP. -/
theorem onlyPushAndCallWriteMemory : Obligations.OnlyPushAndCallWriteMemory := by
  unfold Obligations.OnlyPushAndCallWriteMemory
  intro s t h
  obtain ⟨k, rfl⟩ | ⟨i, hi, he⟩ := step_effect h
  · exact ⟨fun _ _ => rfl, fun _ => ⟨fun _ _ _ _ => rfl, fun _ _ _ => rfl⟩⟩
  · refine ⟨fun h1 h2 => ?_, fun _ => ⟨he.mem_other, fun k hk c => congrArg (·.read c) (he.mem_past k hk)⟩⟩
    exact he.mem_same (fetch_opcode_ne .push rfl hi h1) (fetch_opcode_ne .call rfl hi h2)

/-! ### The invariant -/

/-- Settles O41: the reset memory lists no cell and the reset record is empty. -/
theorem resetMeetsInvariant : Obligations.ResetMeetsInvariant := ⟨rfl, fun _ => rfl⟩

theorem inv_takeFault {s : State} (k : FaultKind) (hm : s.mem.wf = true) : (takeFault k s).Inv := ⟨hm, nofun⟩

/-- Settles O40: the one store of a step lies at an address, and what leaves a record also halts. -/
theorem stepKeepsInvariant : Obligations.StepKeepsInvariant := by
  unfold Obligations.StepKeepsInvariant
  rintro s t ⟨hm, hnone⟩ h
  obtain ⟨hr, -⟩ := step_cases h
  obtain ⟨k, rfl⟩ | ⟨-, i, -, he, hfault, -⟩ := step_fault_or_commit h
  · exact inv_takeFault k hm
  · exact ⟨(exec_effect he).mem_wf hm, fun _ => hfault.trans (hnone hr)⟩

end Sys2Proof.Machine
end

section
/-! PROOFS. Two instructions together: PUSH with POP, CALL with RET, CMP with a branch, a store with the next fetch
(20_memory.md R61; 43_stack.md R162; 44_control_flow.md R172, R177). -/

namespace Sys2Proof.Machine

/-! ### PUSH and POP, CALL and RET -/

/-- Settles O27: POP reads at PUSH's SP, where PUSH stored, and moves SP back. -/
theorem pushThenPopCopies : Obligations.PushThenPopCopies := by
  unfold Obligations.PushThenPopCopies
  intro s ra rb hm hs hpc
  obtain ⟨-, hpush, -⟩ := pushRule
  obtain ⟨-, hpop, -⟩ := popRule
  obtain ⟨m, hexec, -, hread⟩ := hpush s ra (by omega) hs hm
  have hpc2 : (s.pc + 2#8).toNat = s.pc.toNat + 2 := toNat_add_ofNat (n := 2) (by omega)
  have hsp1 := sp_sub_toNat hs
  have hlt := s.sp.isLt
  refine ⟨_, _, hexec, hpop _ rb (hpc2.trans_le (by omega)) (hsp1.trans_ne (by omega)), ?value, ?sp, ?other, ?pc⟩
  case value => exact (get_set_same _ _ _).trans ((hread _).trans (if_pos rfl))
  case sp => exact BitVec.sub_add_cancel _ _
  case other => exact fun r hr => get_set_other _ _ _ _ hr
  case pc => exact (toNat_add_ofNat (n := 2) (hpc2 ▸ by omega)).trans (by rw [hpc2])

/-- What a committed CALL leaves: SP down by one, and the return address in the cell there. -/
theorem exec_call_committed {s t : State} {ra : Reg} (hm : s.mem.wf = true) (h : exec (.call ra.byte) s = .next t)
    (hc : Committed s t) :
    s.pc.toNat ≤ 253 ∧ s.sp.toNat ≠ 0 ∧ t.sp = s.sp - 1#8 ∧ t.mem.read t.sp.toNat = s.pc + 2#8 := by
  have hfits : ¬ (254 ≤ s.pc.toNat ∨ s.sp.toNat = 0) := fun hbad => by
    cases h.symm.trans (call_faultsWith_addressing ra hbad)
    exact not_committed_takeFault hc
  rw [not_or] at hfits
  obtain ⟨hpc, hs⟩ := hfits
  obtain ⟨-, hcall, -⟩ := callRule
  obtain ⟨m, hexec, -, hread⟩ := hcall s ra (by omega) hs hm
  cases h.symm.trans hexec
  exact ⟨by omega, hs, rfl, (hread _).trans (if_pos rfl)⟩

/-- What a committed PUSH leaves in the cell at its SP. -/
theorem exec_push_committed {s t : State} {ra : Reg} (hm : s.mem.wf = true) (h : exec (.push ra.byte) s = .next t)
    (hc : Committed s t) : t.mem.read t.sp.toNat = s.getReg ra := by
  obtain ⟨-, u, p, hu, rfl, -⟩ := exec_committed h hc
  rw [handlerOf, pushHandler_byte_eq] at hu
  split at hu
  · cases hu
  · next hs =>
    cases hu
    exact (read_write_below_sp hs hm _ _).trans (if_pos rfl)

/-- Settles O30: RET pops the return address that CALL left at SP. -/
theorem callThenRetReturns : Obligations.CallThenRetReturns := by
  unfold Obligations.CallThenRetReturns
  intro s t u ra hm h hc husp hucell
  obtain ⟨hpc, hs, htsp, htcell⟩ := exec_call_committed hm h hc
  obtain ⟨-, hret, -⟩ := retRule
  have hsp1 : u.sp = s.sp - 1#8 := husp.trans htsp
  have htop : u.sp.toNat ≠ 255 := by
    have := s.sp.isLt
    rw [hsp1, sp_sub_toNat hs]
    omega
  refine ⟨_, hret u htop, rfl, ?pc, ?sp⟩
  case pc =>
    have hpop : u.mem.read u.sp.toNat = s.pc + 2#8 := by rw [husp, hucell, htcell]
    exact (congrArg BitVec.toNat hpop).trans (toNat_add_ofNat (n := 2) (by omega))
  case sp => exact (congrArg (· + 1#8) hsp1).trans (BitVec.sub_add_cancel _ _)

/-! ### A store and the next fetch -/

/-- Where SP lies `k` bytes past PC, byte `k` of the fetch is the cell at SP. -/
theorem codeBytes_at_sp {t : State} {k : Nat} (h : t.pc.toNat + k = t.sp.toNat) :
    (codeBytes t)[k]? = some (t.mem.read t.sp.toNat) := by
  have := t.sp.isLt
  rw [codeBytes_getElem?, codeByte_eq, h, if_pos (by omega)]

/-- Settles O49: the fetch reads memory as the store left it. -/
theorem nextFetchSeesTheStore : Obligations.NextFetchSeesTheStore := by
  unfold Obligations.NextFetchSeesTheStore
  intro s t ra k hm hc hk
  rw [codeBytes_at_sp hk]
  refine ⟨fun h => congrArg some (exec_push_committed hm h hc), fun h => ?_⟩
  obtain ⟨-, -, -, hcell⟩ := exec_call_committed hm h hc
  exact congrArg some hcell

/-! ### CMP and the branches -/

/-- FL stays along a run that steps over no CMP. -/
theorem fl_of_stepsWhile_not_cmp {t u : State} (h : StepsWhile (fun w => w.opcodeByte ≠ 0xA7#8) t u) : u.fl = t.fl := by
  induction h with
  | refl => rfl
  | tail _ hop hstep ih =>
    obtain ⟨-, hkeeps, -⟩ := flagLifecycle
    exact (hkeeps _ _ hstep hop).trans ih

/-- A next PC that is a byte or PC + 2, as a byte. -/
theorem eq_ite_of_toNat_eq {c : Prop} [Decidable c] {p target pc : Byte}
    (h : (p.toNat : Int) = if c then (target.toNat : Int) else pc.toNat + 2) :
    p = if c then target else pc + 2#8 := by
  have hlt := p.isLt
  apply BitVec.eq_of_toNat_eq
  by_cases hc : c
  · rw [if_pos hc] at h ⊢
    exact_mod_cast h
  · rw [if_neg hc] at h
    rw [if_neg hc, BitVec.toNat_add, BitVec.toNat_ofNat]
    omega

/-- Settles O33: FL holds the comparison until the next CMP, and the branches read it there. -/
theorem compareThenBranch : Obligations.CompareThenBranch := by
  unfold Obligations.CompareThenBranch
  intro s t u v ra rb rc hcmp hcs hrun hcu
  have hfl : u.fl = compareFlag (s.getReg ra) (s.getReg rb) := by
    rw [fl_of_stepsWhile_not_cmp hrun, exec_cmp_committed_fl hcmp hcs, operandValue_byte, operandValue_byte]
  have hequal : u.fl = .equal ↔ s.getReg ra = s.getReg rb := by
    obtain ⟨heq, -⟩ := compareFlag_iff (s.getReg ra) (s.getReg rb)
    rw [hfl, heq]
  refine ⟨fun h => ?_, fun h => ?_⟩
  · have hpc := exec_committed_pc h hcu
    simp only [nextPc, operandValue_byte, hequal] at hpc
    exact eq_ite_of_toNat_eq hpc
  · have hpc := exec_committed_pc h hcu
    simp only [nextPc, operandValue_byte, ne_eq, hequal] at hpc
    rw [eq_ite_of_toNat_eq hpc, ite_not]

end Sys2Proof.Machine
end

section
/-! PROOFS. Steps, runs and the host's ports (10_state.md R30, R33, R35; 20_memory.md R50; 40_execution_loop.md R104 to R110;
70_reset_and_hazards.md R230, R232). -/

namespace Sys2Proof.Machine

/-! ### Steps -/

/-- Settles O8: the guard, a failed fetch and an instruction each give a next state. -/
theorem runningMachineAlwaysSteps : Obligations.RunningMachineAlwaysSteps := by
  unfold Obligations.RunningMachineAlwaysSteps
  intro s hr
  cases hg : guardFires s with
  | true => exact ⟨_, step_guard hr hg⟩
  | false =>
    cases hf : fetch s with
    | error k => exact ⟨_, step_fetch_error hr hg hf⟩
    | ok i =>
      rw [step_fetch_ok hr hg hf]
      exact exec_next i s

/-- Settles O7: the list of the bytes from PC up is the source that the fetch decodes. -/
theorem stepRunsDecodedInstruction : Obligations.StepRunsDecodedInstruction := by
  unfold Obligations.StepRunsDecodedInstruction
  rintro s i rest ⟨hr, hg⟩ h
  obtain ⟨hfrom, -⟩ := (decode_ok_iff _ i rest).1 h
  simp only [codeBytes_getElem?] at hfrom
  exact step_fetch_ok hr hg ((fetch_ok_iff s i).2 hfrom)

theorem eq_of_stepsWhile_halted {P : State → Prop} {s t : State} (hs : s.status = .halted) (h : StepsWhile P s t) :
    t = s := by
  induction h with
  | refl => rfl
  | tail _ _ hstep ih =>
    rw [ih, step_halted hs] at hstep
    cases hstep

theorem hostReset_halted {s : State} (hs : s.status = .halted) (limit : Option Nat) (image : List Byte) :
    hostReset s limit image = boot limit image := by
  simp [hostReset, hs]

/-- Settles O9: with no step from a Halted state, a run from it has none. -/
theorem haltedStateHasNoStep : Obligations.HaltedStateHasNoStep :=
  fun _ hs => ⟨step_halted hs, fun _ _ => eq_of_stepsWhile_halted hs, hostReset_halted hs⟩

/-! ### Memory -/

theorem read_head (k : Nat) (v : Byte) (m : Memory) : Memory.read ((k, v) :: m) k = v := if_pos rfl

theorem read_tail {k a : Nat} (h : k ≠ a) (v : Byte) (m : Memory) : Memory.read ((k, v) :: m) a = m.read a := if_neg h

/-- A listed address is not blank, so a canonical memory that reads alike does not start above it. -/
theorem le_of_read_eq {lo lo' k : Nat} {v : Byte} {m n : Memory} (hm : Memory.wfFrom lo ((k, v) :: m) = true)
    (hn : Memory.wfFrom lo' n = true) (h : ∀ a < 256, Memory.read ((k, v) :: m) a = n.read a) : lo' ≤ k := by
  obtain ⟨-, hk, hv, -⟩ := (wfFrom_cons_iff lo k v m).1 hm
  by_contra hlt
  have hread := h k hk
  rw [read_head, read_below hn (by omega)] at hread
  exact hv hread

/-- Canonical memories that read alike list the same cells: their first addresses agree, then their first bytes, then the
rest. -/
theorem eq_of_read_eq {lo : Nat} {m n : Memory} (hm : Memory.wfFrom lo m = true) (hn : Memory.wfFrom lo n = true)
    (h : ∀ a < 256, m.read a = n.read a) : m = n := by
  induction m generalizing lo n with
  | nil =>
    cases n with
    | nil => rfl
    | cons d n =>
      have hpast : d.1 + 1 ≤ d.1 := le_of_read_eq (lo' := d.1 + 1) (n := []) hn rfl fun a ha => (h a ha).symm
      omega
  | cons c m ih =>
    cases n with
    | nil =>
      have hpast : c.1 + 1 ≤ c.1 := le_of_read_eq (lo' := c.1 + 1) (n := []) hm rfl h
      omega
    | cons d n =>
      obtain ⟨k, v⟩ := c
      obtain ⟨k', v'⟩ := d
      obtain ⟨-, hk, hv, hm'⟩ := (wfFrom_cons_iff lo k v m).1 hm
      obtain ⟨-, hk', hv', hn'⟩ := (wfFrom_cons_iff lo k' v' n).1 hn
      have hle : k' ≤ k :=
        le_of_read_eq hm ((wfFrom_cons_iff k' k' v' n).2 ⟨le_rfl, hk', hv', hn'⟩) h
      have hge : k ≤ k' :=
        le_of_read_eq hn ((wfFrom_cons_iff k k v m).2 ⟨le_rfl, hk, hv, hm'⟩) fun a ha => (h a ha).symm
      obtain rfl : k = k' := le_antisymm hge hle
      obtain rfl : v = v' := by simpa only [read_head] using h k hk
      rw [ih hm' hn' fun a ha => ?_]
      obtain hbelow | habove := Nat.lt_or_ge a (k + 1)
      · rw [read_below hm' hbelow, read_below hn' hbelow]
      · have hne : k ≠ a := by omega
        simpa only [read_tail hne] using h a ha

/-- Settles O50: the canonical form from address 0 up. -/
theorem canonicalMemoryIsUnique : Obligations.CanonicalMemoryIsUnique :=
  fun _ _ hm hn h => eq_of_read_eq hm hn h

/-! ### Boot and reset -/

theorem boot_of_fits {image : List Byte} (limit : Option Nat) (h : image.length ≤ 256) : boot limit image =
    .next { State.reset with mem := Memory.writeBytes [] 0 image, cycleLimit := limit } := if_pos h

theorem boot_of_too_long {image : List Byte} (limit : Option Nat) (h : 256 < image.length) :
    boot limit image = .refused .imageTooLong := if_neg h.not_ge

/-- What the loader wrote: the image from address 0 up, and blank cells past it. -/
theorem read_image {image : List Byte} (h : image.length ≤ 256) (a : Nat) :
    (Memory.writeBytes [] 0 image).read a = (image[a]?).getD 0x00#8 := by
  obtain hin | hpast := Nat.lt_or_ge a image.length
  · have hread := read_writeBytes_in (m := []) rfl 0 a image (by omega) hin
    rw [Nat.zero_add] at hread
    rw [hread, List.getElem?_eq_getElem hin, Option.getD_some]
  · rw [read_writeBytes_above [] 0 a image (by omega), List.getElem?_eq_none hpast]
    rfl

theorem image_wf {image : List Byte} (h : image.length ≤ 256) : (Memory.writeBytes [] 0 image).wf = true :=
  writeBytes_wf (m := []) rfl image (by omega)

/-- Settles O42: the loader writes memory alone, and the rest is `State.reset`. -/
theorem bootLoadsImage : Obligations.BootLoadsImage := by
  unfold Obligations.BootLoadsImage
  refine ⟨fun limit image h => ⟨_, boot_of_fits limit h, ⟨image_wf h, fun _ => rfl⟩, read_image h, fun r => ?_, rfl, rfl, rfl,
    rfl, rfl, rfl, rfl, rfl⟩, fun limit image => boot_of_too_long limit⟩
  cases r <;> rfl

/-- Settles O43: a reset of a Halted machine is a boot. -/
theorem resetOnlyWhileNotRunning : Obligations.ResetOnlyWhileNotRunning := by
  unfold Obligations.ResetOnlyWhileNotRunning
  refine ⟨fun s limit image hr => by simp [hostReset, hr], fun s limit image hs h => ?_⟩
  rw [hostReset_halted hs, boot_of_fits limit h]
  exact ⟨_, rfl, rfl, rfl, rfl⟩

/-! ### The status port -/

theorem readStatus_halted {s : State} (h : s.status = .halted) : readStatus s = some (statusFields s) := by
  simp [readStatus, h]

theorem statusFields_of_no_fault {s : State} (h : s.fault = none) :
    statusFields s = ⟨haltedBit s.status, 0#3, 0#8, s.cycles⟩ := by
  simp [statusFields, h]

/-- Settles O55: the port shows the fields of a Halted state, which the record decides. -/
theorem statusPortShows : Obligations.StatusPortShows := by
  unfold Obligations.StatusPortShows
  refine ⟨fun s hr => by simp [readStatus, hr], fun s ⟨hs, hnone⟩ => ?_, fun s k => ?_, rfl⟩
  · rw [readStatus_halted hs, statusFields_of_no_fault hnone, hs]
    rfl
  · rw [readStatus_halted rfl]
    cases k <;> rfl

/-! ### Runs of a given length -/

theorem run_succ_of_step (M : Host.Core) {s t : M.State} (h : M.step s = .next t) (k : Nat) :
    M.run (k + 1) s = M.run k t := by
  rw [Host.Core.run, h]

theorem run_succ {s t : State} (h : step s = .next t) (k : Nat) :
    Sys2Proof.core.run (k + 1) s = Sys2Proof.core.run k t := run_succ_of_step Sys2Proof.core h k

/-- Settles O51, by induction on the commits left below the limit: a step uses one up or halts. -/
theorem cycleLimitBoundsEveryRun : Obligations.CycleLimitBoundsEveryRun := by
  unfold Obligations.CycleLimitBoundsEveryRun
  intro s limit hl
  induction hleft : limit - s.cycles using Nat.strong_induction_on generalizing s with
  | _ left ih =>
    cases hs : s.status with
    | halted => exact ⟨0, s, Nat.zero_le _, rfl, hs, le_max_right _ _⟩
    | running =>
      obtain ⟨t, ht⟩ := runningMachineAlwaysSteps s hs
      obtain ⟨k, rfl⟩ | ⟨hg, i, -, -, -, hc, hlt, -⟩ := step_fault_or_commit ht
      · exact ⟨1, _, Nat.le_add_left 1 left, run_succ ht 0, rfl, le_max_right _ _⟩
      · have hbelow : s.cycles < limit := by
          by_contra hge
          rw [(guardFires_iff s).2 ⟨limit, hl, Nat.le_of_not_lt hge⟩] at hg
          cases hg
        obtain ⟨k, u, hk, hrun, hu, hmax⟩ := ih (limit - t.cycles) (by omega) t (hlt.trans hl) rfl
        exact ⟨k + 1, u, by omega, (run_succ ht k).trans hrun, hu, by omega⟩

/-- The step of a JMP to its own address moves the count alone. -/
theorem step_selfJump {s : State} {r : Reg} (hr : s.status = .running) (hl : s.cycleLimit = none)
    (hop : s.opcodeByte = 0x54#8) (hpc : s.pc.toNat ≤ 254) (hb : s.operandByte 1 = r.byte) (hv : s.getReg r = s.pc) :
    step s = .next { s with cycles := s.cycles + 1 } := by
  have hg : guardFires s = false := by simp [guardFires, hl]
  have hfetch : fetch s = .ok (.jmp (s.operandByte 1)) := fetch_of_opcode (o := .jmp) hop (Nat.succ_le_succ hpc)
  rw [hb] at hfetch
  obtain ⟨-, hjmp, -⟩ := jmpRule
  rw [step_fetch_ok hr hg hfetch, hjmp, hv]

/-- Settles O52: the state after each step is the same but for the count. -/
theorem selfJumpRunsForever : Obligations.SelfJumpRunsForever := by
  unfold Obligations.SelfJumpRunsForever
  intro s r hr hl hop hpc hb hv k
  have hrun : ∀ n, Sys2Proof.core.run k { s with cycles := n } = .next { s with cycles := n + k } := by
    induction k with
    | zero => exact fun n => rfl
    | succ k ih =>
      intro n
      have hstep := step_selfJump (s := { s with cycles := n }) hr hl hop hpc hb hv
      rw [run_succ hstep, ih, Nat.add_assoc, Nat.add_comm 1 k]
  exact ⟨_, hrun s.cycles, hr, rfl, rfl⟩

/-! ### Runs from a boot -/

/-- A boot that starts a run gives a Running state that meets the invariant. -/
theorem boot_next_spec {limit : Option Nat} {image : List Byte} {s : State} (h : boot limit image = .next s) :
    s.status = .running ∧ s.Inv := by
  obtain hfits | hlong := le_or_gt image.length 256
  · rw [boot_of_fits limit hfits] at h
    cases h
    exact ⟨rfl, image_wf hfits, fun _ => rfl⟩
  · rw [boot_of_too_long limit hlong] at h
    cases h

theorem inv_of_reachable {t : State} (h : t.Reachable) : t.Inv := by
  obtain ⟨limit, image, s, hboot, hreach⟩ := h
  obtain ⟨-, hinv⟩ := boot_next_spec hboot
  exact reaches_keeps stepKeepsInvariant hreach hinv

/-- A reachable Halted state is the state after a step from a reachable one. -/
theorem exists_step_of_reachable_halted {t : State} (h : t.Reachable) (ht : t.status = .halted) :
    ∃ s : State, s.Reachable ∧ step s = .next t := by
  obtain ⟨limit, image, b, hboot, hreach⟩ := h
  cases hreach with
  | refl =>
    obtain ⟨hr, -⟩ := boot_next_spec hboot
    rw [hr] at ht
    cases ht
  | tail hprefix _ hstep => exact ⟨_, ⟨limit, image, b, hboot, hprefix⟩, hstep⟩

/-- The ways a step from a Running state without a record halts (40_execution_loop.md R109). -/
theorem step_halts_cases {s t : State} (hr : s.status = .running) (hnone : s.fault = none) (h : step s = .next t)
    (ht : t.status = .halted) :
    (t.fault = none ∧ s.opcodeByte = 0x01#8 ∧ Committed s t) ∨
      (guardFires s = true ∧ t = s.stoppedBy .cycleLimitExceeded) ∨
      (guardFires s = false ∧ ∃ k, k ≠ .cycleLimitExceeded ∧ t = s.stoppedBy k) := by
  obtain ⟨-, ⟨hg, rfl⟩ | ⟨hg, k, hk, rfl⟩ | ⟨hg, i, hi, he⟩⟩ := step_cases h
  · exact .inr (.inl ⟨hg, rfl⟩)
  · refine .inr (.inr ⟨hg, k, ?_, rfl⟩)
    obtain ⟨rfl, -⟩ | ⟨rfl, -⟩ := fetch_error_cases hk <;> decide
  · obtain ⟨k, hk, -, rfl⟩ | ⟨hfault, hc, -⟩ := exec_fault_or_commit he
    · exact .inr (.inr ⟨hg, k, hk, rfl⟩)
    · obtain rfl := eq_hlt_of_committed_halts hr he hc ht
      exact .inl ⟨hfault.trans hnone, fetch_ok_opcode hi, hc⟩

/-- Settles O53: a run ends with a step from a reachable state, which has no record while it is Running. -/
theorem runOutcomes : Obligations.RunOutcomes := by
  unfold Obligations.RunOutcomes
  intro t hreach ht
  obtain ⟨s, hs, hstep⟩ := exists_step_of_reachable_halted hreach ht
  obtain ⟨hr, -⟩ := step_cases hstep
  obtain ⟨-, hnone⟩ := inv_of_reachable hs
  exact ⟨s, hs, hr, hnone hr, hstep, step_halts_cases hr (hnone hr) hstep ht⟩

/-- Settles O54: by the invariant a state with a record is Halted. -/
theorem faultRecordIsFinal : Obligations.FaultRecordIsFinal := by
  unfold Obligations.FaultRecordIsFinal
  intro t hreach hfault
  obtain ⟨-, hnone⟩ := inv_of_reachable hreach
  cases hs : t.status with
  | running => exact absurd (hnone hs) hfault
  | halted => exact ⟨rfl, step_halted hs, by simp [finalReport, hs]⟩

end Sys2Proof.Machine
end
